-- ==== Sys2Proof/Word.lean ====
section
/-! DEFINITION. The words of the ASK link core: the widths that spec/00_scope.md rule R8 fixes. -/

namespace Sys2Proof

/-- A host data word, and a binary64 value as it is stored: 64 bits (00_scope.md R8). -/
abbrev Word := BitVec 64

/-- A word address of the host port: 20 bits (00_scope.md R8, 20_memory.md R80). -/
abbrev Addr := BitVec 20

/-- A frequency in hertz or a bit or sample count: 32 bits, unsigned (00_scope.md R8). -/
abbrev U32 := BitVec 32

/-- A packed host transaction `DIR ++ ADDR[19:0] ++ DATA[63:0]`: 85 bits (30_encoding.md R111). -/
abbrev Packed := BitVec 85

end Sys2Proof
end

