-- ==== Sys2Proof/Machine/Binary64.lean ====
section
/-! DEFINITION. IEEE 754 binary64: the decoding of a word (spec/00_scope.md R10), the rounding of an exact number
to a word (R11) and the comparison of decoded values (R13). -/

namespace Sys2Proof.Machine

/-- What a binary64 word stands for (R10): an exact rational, a signed infinity, or not a number. -/
inductive F64 where
  | fin (q : ℚ)
  | inf (negative : Bool)
  | nan
  deriving DecidableEq, Repr

/-- The exponent field `w[62:52]` (R10). -/
def expField (w : Word) : Nat := (w.extractLsb' 52 11).toNat

/-- The fraction field `w[51:0]` (R10). -/
def fracField (w : Word) : Nat := (w.extractLsb' 0 52).toNat

/-- The sign `(−1)^s` with s = w[63] (R10). -/
def signOf (w : Word) : ℚ := if w.getLsbD 63 then -1 else 1

/-- `dec(w)` of R10. -/
def dec (w : Word) : F64 :=
  if expField w = 0 then .fin (signOf w * fracField w / 2 ^ 1074)
  else if expField w < 2047 then .fin (signOf w * (2 ^ 52 + fracField w) * 2 ^ ((expField w : ℤ) - 1075))
  else if fracField w = 0 then .inf (w.getLsbD 63)
  else .nan

/-- `finite(w)` of R10: the exponent field is not 2047. -/
def isFinite (w : Word) : Bool := expField w != 2047

/-- `isNaN(w)` of R10. -/
def isNaN (w : Word) : Bool := expField w == 2047 && fracField w != 0

/-- The rational a finite value stands for; 0 for an infinity or NaN, which no rule asks it of. -/
def F64.toRat : F64 → ℚ
  | .fin q => q
  | .inf _ => 0
  | .nan => 0

/-- The real value of a finite word, an exact dyadic rational (R13). -/
def decQ (w : Word) : ℚ := (dec w).toRat

/-- `a > b` on the extended reals, false when either side is NaN (R13). -/
def F64.gt : F64 → F64 → Bool
  | .nan, _ => false
  | _, .nan => false
  | .fin a, .fin b => decide (b < a)
  | .fin _, .inf negative => negative
  | .inf negative, .fin _ => !negative
  | .inf na, .inf nb => !na && nb

/-- The word +0.0 (R10). -/
def posZero : Word := 0x0000000000000000#64

/-- The word +∞ (R10 with s = 0). -/
def posInf : Word := 0x7FF0000000000000#64

/-- The word −∞ (R10 with s = 1). -/
def negInf : Word := 0xFFF0000000000000#64

section Rounding

variable {K : Type} [Field K] [LinearOrder K] [FloorRing K]

/-- The integer nearest to x, a tie going to the even one (R11). -/
def roundEven (x : K) : ℤ :=
  let f := ⌊x⌋
  if x - f < 1 / 2 then f
  else if 1 / 2 < x - f then f + 1
  else if f % 2 = 0 then f else f + 1

/-- The exponent of the unit in the last place of the binary64 numbers near v ≠ 0: 52 below the exponent of v's
leading bit, and never below that of the subnormals, −1074 (R10). -/
def ulpExp (v : K) : ℤ := max (Int.log 2 |v| - 52) (-1074)

/-- The magnitude bits `[62:0]` of the binary64 word whose value is `m × 2^e`, for −1074 ≤ e and m ≤ 2^53 (and
2^52 ≤ m unless e = −1074): counting from the subnormals, a carry of m into the next binade included (R10). -/
def magnitudeBits (e m : ℤ) : Nat := ((e + 1074) * 2 ^ 52 + m).toNat

/-- `R64(v)` of R11: the binary64 word nearest to the exact number v. It is one definition for rationals, where it
computes, and for reals. -/
def r64 (v : K) : Word :=
  if v = 0 then posZero
  else if (2 : K) ^ 1024 - (2 : K) ^ 970 ≤ |v| then (if v < 0 then negInf else posInf)
  else
    BitVec.ofNat 64 ((if v < 0 then 2 ^ 63 else 0) +
      magnitudeBits (ulpExp v) (roundEven (|v| / (2 : K) ^ ulpExp v)))

/-- `R64(0) = +0.0` (R11). -/
theorem r64_zero : r64 (0 : K) = posZero := by simp [r64]

end Rounding

end Sys2Proof.Machine
end

