-- ==== Sys2Proof/Syntax.lean ====
section
/-! DEFINITION. The instructions of the ASK link core at its two levels (spec/30_encoding.md R110): the eight
commands of the opcode map (R113) and the two host transactions (R111). One constructor per row of
spec/opcode_table.json. -/

namespace Sys2Proof

/-- An instruction: a command that the core runs at its core step, or a transaction that the host issues. -/
inductive Instr where
  /-- NOP, OP 0x00 (45_system.md R240). -/
  | nop
  /-- CONFIG, OP 0x01 (40_config.md R141). -/
  | config
  /-- MODULATE, OP 0x02 (41_ask_modulator.md R160). -/
  | modulate
  /-- ADD_NOISE, OP 0x03 (42_awgn_channel.md R180). -/
  | addNoise
  /-- DEMODULATE, OP 0x04 (43_envelope_demod.md R200). -/
  | demodulate
  /-- COMPUTE_BER, OP 0x05 (44_ber_counter.md R230). -/
  | computeBer
  /-- CLEAR_ERROR, OP 0x0E (45_system.md R242). -/
  | clearError
  /-- SOFT_RESET, OP 0x0F (45_system.md R244). -/
  | softReset
  /-- WR: the host writes one word, `MemWrite(addr, 8, data)` (30_encoding.md R111, R120). -/
  | wr (addr : Addr) (data : Word)
  /-- RD: the host reads one word, `MemRead(addr, 8)` (30_encoding.md R111, R120). -/
  | rd (addr : Addr)
  deriving DecidableEq, Repr

/-- The two agents of the block (00_scope.md R3, 20_memory.md R81). -/
inductive Agent where
  /-- The bus master, which issues transactions. -/
  | host
  /-- The sequencer, which runs the accepted command. -/
  | core
  deriving DecidableEq, Repr, Inhabited

/-- The two levels of instruction (30_encoding.md R110): true of a command, false of a host transaction. -/
def Instr.isCommand : Instr → Bool
  | .nop => true
  | .config => true
  | .modulate => true
  | .addNoise => true
  | .demodulate => true
  | .computeBer => true
  | .clearError => true
  | .softReset => true
  | .wr _ _ => false
  | .rd _ => false

end Sys2Proof
end

