-- ==== Sys2Proof/Config.lean ====
section
/-! DEFINITION. What no rule of the spec fixes: the implementation parameters N_MAX, L_MAX, NUM and GAUSS
(spec/00_scope.md R7, R15, R17) and the free values (R14), each an opaque constant. Every meaning takes them as one
record `Params`, so that a statement can be made of every instance; the machine runs under `Config.params`. -/

namespace Sys2Proof

open Sys2Proof.Machine (r64 r64_zero posZero)

/-- An exact real that a numerics instance gives, together with its rounding `R64`, so that the machine can store
the rounding without computing on reals. For each real there is exactly one such record: `word` is no choice. -/
structure RealVal where
  /-- The exact real. -/
  val : ℝ := 0
  /-- `R64` of it. -/
  word : Word := posZero
  word_eq : word = r64 val := by simp [r64_zero]
  deriving Inhabited

/-- A noise power of ℝ≥0, with its rounding and the answer to `P_n = 0`. For each power there is exactly one such
record. -/
structure Power where
  /-- The exact power. -/
  val : NNReal := 0
  /-- `R64` of it. -/
  word : Word := posZero
  /-- Whether it is 0. -/
  isZero : Bool := true
  word_eq : word = r64 (val : ℝ) := by simp [r64_zero]
  isZero_iff : isZero = true ↔ val = 0 := by simp
  deriving Inhabited

/-- The 5th-order filter's coefficients `(b0..b5, a0..a5)` (00_scope.md R15). `a0` is no field: LPF_A0 is always 1.0
(10_state.md R46), and `a0 = d0/d0 = 1` (40_config.md R145). -/
structure Coeffs where
  /-- The numerator: b0..b5. -/
  b : Vector RealVal 6
  /-- The denominator past a0: a1..a5. -/
  aTail : Vector RealVal 5
  deriving Inhabited

/-- The numerator coefficient b_i. -/
def Coeffs.bAt (c : Coeffs) (i : Fin 6) : ℝ := (c.b.get i).val

/-- The denominator coefficient a_i, with a_0 = 1. -/
def Coeffs.aAt (c : Coeffs) (i : Fin 6) : ℝ := Fin.cases 1 (fun j => (c.aTail.get j).val) i

/-- The numerics record NUM (00_scope.md R15). `lpf` gives the filter's output at the last of the inputs it is given,
so that every instance is causal, as 43_envelope_demod.md R204 says of the single forward pass ("FILT[n] depends only on x[0..n]"). -/
structure Numerics where
  /-- `carrier(A, p, M)`. -/
  carrier : Word → Nat → Nat → Word
  /-- `noisePower(Ps, snr)`. -/
  noisePower : ℚ → Word → Power
  /-- `noisy(s, Pn, z)`. -/
  noisy : Word → NNReal → ℝ → Word
  /-- `lpfCoeffs(fc, fs)`. -/
  lpfCoeffs : Nat → Nat → Coeffs
  /-- `lpf(b, a, x)`, its last output. -/
  lpf : (Fin 6 → ℝ) → (Fin 6 → ℝ) → List ℝ → Word
  deriving Inhabited

/-- The implementation parameters (00_scope.md R7) and the free values (R14). -/
structure Params where
  /-- N_MAX − 1, so that 1 ≤ N_MAX ≤ 65536. -/
  nMaxPred : Fin 65536
  /-- L_MAX − 1, so that 1 ≤ L_MAX ≤ 65536. -/
  lMaxPred : Fin 65536
  /-- NUM. -/
  num : Numerics
  /-- GAUSS(seed, j). -/
  gauss : Word → Nat → ℝ
  /-- The signal power of a waveform that holds a non-finite word, of which the spec states no power. -/
  freePower : List Word → NNRat
  /-- The n-th draw, where a 64-bit word is drawn. -/
  freeWord : Nat → Word
  /-- The n-th draw, where a bit is drawn. -/
  freeBit : Nat → Bool
  /-- The n-th draw, where the next agent is drawn. -/
  freeAgent : Nat → Agent
  deriving Inhabited

/-- N_MAX: the capacity of BITS_IN and BITS_OUT (00_scope.md R7). -/
def Params.nMax (p : Params) : Nat := p.nMaxPred.val + 1

/-- L_MAX: the capacity of TIME, TX, RX and FILT (00_scope.md R7). -/
def Params.lMax (p : Params) : Nat := p.lMaxPred.val + 1

/-- N_MAX − 1 of this machine: any value (00_scope.md R7; log entry 1). -/
opaque Config.nMaxPred : Fin 65536

/-- L_MAX − 1 of this machine: any value (00_scope.md R7; log entry 1). -/
opaque Config.lMaxPred : Fin 65536

/-- NUM of this machine: any instance (00_scope.md R15; log entry 2). -/
opaque Config.num : Numerics

/-- GAUSS of this machine: any function (00_scope.md R17; log entry 3). -/
opaque Config.gauss : Word → Nat → ℝ

/-- The signal power of a waveform with a non-finite word (log entry 7). -/
opaque Config.freePower : List Word → NNRat

/-- The drawn words (00_scope.md R14; log entry 4). -/
opaque Config.freeWord : Nat → Word

/-- The drawn bits (00_scope.md R14; log entry 4). -/
opaque Config.freeBit : Nat → Bool

/-- The drawn turns, where the state holds no schedule (20_memory.md R92; log entry 9). -/
opaque Config.freeAgent : Nat → Agent

/-- The parameters of this machine. Nothing can be proved of them that is not true of every instance. -/
def Config.params : Params where
  nMaxPred := Config.nMaxPred
  lMaxPred := Config.lMaxPred
  num := Config.num
  gauss := Config.gauss
  freePower := Config.freePower
  freeWord := Config.freeWord
  freeBit := Config.freeBit
  freeAgent := Config.freeAgent

end Sys2Proof
end

