-- ==== Sys2Proof/WellFormed.lean ====
section
/-! DEFINITION. Which encodings and host accesses are well formed (spec/30_encoding.md R111, R112, R113, R116;
spec/20_memory.md R86, R87). An `Instr` itself needs no check: its fields have the widths of R111, so that no term of it is ill
formed. -/

namespace Sys2Proof

/-- The opcodes of the opcode map (30_encoding.md R113), each with its command. -/
def opcodeMap : List (BitVec 8 × Instr) :=
  [(0x00#8, .nop), (0x01#8, .config), (0x02#8, .modulate), (0x03#8, .addNoise), (0x04#8, .demodulate),
   (0x05#8, .computeBer), (0x0E#8, .clearError), (0x0F#8, .softReset)]

/-- The OP field `w[7:0]` of a command word (30_encoding.md R112). -/
def opOf (w : Word) : BitVec 8 := w.extractLsb' 0 8

/-- The RES field `w[63:8]` of a command word (30_encoding.md R112). -/
def resOf (w : Word) : BitVec 56 := w.extractLsb' 8 56

/-- The DIR bit of a packed transaction: 1 is a write (30_encoding.md R111). -/
def dirOf (t : Packed) : Bool := t.getLsbD 84

/-- The ADDR field of a packed transaction (30_encoding.md R111). -/
def addrOf (t : Packed) : Addr := t.extractLsb' 64 20

/-- The DATA field of a packed transaction (30_encoding.md R111). -/
def dataOf (t : Packed) : Word := t.extractLsb' 0 64

/-- Whether an opcode is in the opcode map (30_encoding.md R113, R116). -/
def opDefined (op : BitVec 8) : Bool := (opcodeMap.lookup op).isSome

/-- A well-formed command word: a defined opcode and reserved bits that are zero (30_encoding.md R116). -/
def commandWellFormed (w : Word) : Bool := opDefined (opOf w) && resOf w == 0#56

/-- A well-formed packed transaction: "DATA is all zero for a read" (30_encoding.md R111). -/
def transactionWellFormed (t : Packed) : Bool := dirOf t || dataOf t == 0#64

/-- A well-formed access on a byte bridge: a whole word at a byte address that is a multiple of 8 (20_memory.md
R86, R87). -/
def bridgeWellFormed (byteAddr : BitVec 23) (size : Nat) : Bool := size == 8 && byteAddr.toNat % 8 == 0

end Sys2Proof
end

