-- ==== Sys2Proof/Decode.lean ====
section
/-! DEFINITION. Decoding of command words and packed transactions, the rejections by name, the encoder, and the byte
order of a byte bridge (spec/30_encoding.md R111 to R119; spec/20_memory.md R86). -/

namespace Sys2Proof

/-- Why a command word is illegal (30_encoding.md R116). -/
inductive IllegalCommand where
  /-- OP is not in the opcode map: E_ILLEGAL(1) at the core step. -/
  | undefinedOpcode
  /-- RES is not zero: E_ILLEGAL(2) at the core step. -/
  | reservedBits
  deriving DecidableEq, Repr

/-- The sub-cause INFO of E_ILLEGAL (60_exceptions.md R251). -/
def IllegalCommand.info : IllegalCommand → BitVec 8
  | .undefinedOpcode => 0x01#8
  | .reservedBits => 0x02#8

/-- Why bits are no instruction of the block. -/
inductive DecodeError where
  /-- An illegal command word (30_encoding.md R116). -/
  | illegal (why : IllegalCommand)
  /-- A read with DATA that is not zero, which R111 does not let a packed transaction be. -/
  | readWithData
  deriving DecidableEq, Repr

/-- The instruction that a command word stands for; the opcode is checked before the reserved bits (30_encoding.md
R115, R116). -/
def decodeCommand (w : Word) : Except IllegalCommand Instr :=
  match opcodeMap.lookup (opOf w) with
  | none => .error .undefinedOpcode
  | some i => if resOf w = 0#56 then .ok i else .error .reservedBits

/-- The transaction that a packed pattern stands for, none for a read with data (30_encoding.md R111). -/
def decodeTransaction (t : Packed) : Option Instr :=
  if dirOf t then some (.wr (addrOf t) (dataOf t))
  else if dataOf t = 0#64 then some (.rd (addrOf t))
  else none

/-- The bits of an instruction at its level: a command is exactly one 64-bit word and a transaction one 85-bit unit
(30_encoding.md R119). -/
inductive Encoded where
  | command (w : Word)
  | transaction (t : Packed)
  deriving DecidableEq, Repr

/-- Decoding of the bits of either level. -/
def decode : Encoded → Except DecodeError Instr
  | .command w => (decodeCommand w).mapError .illegal
  | .transaction t => (decodeTransaction t).elim (.error .readWithData) .ok

/-- The command word of an opcode: `zext_64(OP)`, with RES zero (30_encoding.md R112). -/
def commandWord (op : BitVec 8) : Word := op.setWidth 64

/-- The packed pattern `DIR ++ ADDR ++ DATA` (30_encoding.md R111). -/
def packTransaction (dir : Bool) (addr : Addr) (data : Word) : Packed := (BitVec.ofBool dir ++ addr ++ data)

/-- The bits of an instruction (30_encoding.md R111 to R113). -/
def encode : Instr → Encoded
  | .nop => .command (commandWord 0x00#8)
  | .config => .command (commandWord 0x01#8)
  | .modulate => .command (commandWord 0x02#8)
  | .addNoise => .command (commandWord 0x03#8)
  | .demodulate => .command (commandWord 0x04#8)
  | .computeBer => .command (commandWord 0x05#8)
  | .clearError => .command (commandWord 0x0E#8)
  | .softReset => .command (commandWord 0x0F#8)
  | .wr addr data => .transaction (packTransaction true addr data)
  | .rd addr => .transaction (packTransaction false addr 0#64)

/-- The level whose bits an opcode-table row of `nbits` bits gives: a command has 64 bits, a transaction 85. -/
def encodedOfTable (nbits w : Nat) : Encoded :=
  if nbits ≤ 64 then .command (BitVec.ofNat 64 w) else .transaction (BitVec.ofNat 85 w)

/-- What the decoder reads from an opcode-table row's bits. -/
def decodeTableWord (nbits w : Nat) : Option Instr :=
  match decode (encodedOfTable nbits w) with
  | .ok i => some i
  | .error _ => none

/-- The word that the eight bytes of a whole-word bridge access carry: byte `8a + j` is bits `[8j+7:8j]`
(20_memory.md R86). -/
def wordOfBytes : List (BitVec 8) → Word
  | [] => 0#64
  | b :: rest => b.setWidth 64 ||| (wordOfBytes rest <<< 8)

/-- The word address of the byte address `8a + j` on a byte bridge (20_memory.md R86). -/
def wordAddrOfByte (byteAddr : BitVec 23) : Addr := byteAddr.extractLsb' 3 20

end Sys2Proof
end

