-- ==== Sys2Proof/Machine/State.lean ====
section
/-! DEFINITION. The state of the ASK link core as plain data (spec/10_state.md R30 to R66), with the host's queue, and
the state after power-on reset (spec/70_reset_and_hazards.md R280). -/

namespace Sys2Proof.Machine

/-- The flags of STATUS (10_state.md R36); bits 63:8 read 0. -/
structure Status where
  busy : Bool
  err : Bool
  errMulti : Bool
  cfgValid : Bool
  txValid : Bool
  rxValid : Bool
  rxbValid : Bool
  berValid : Bool
  deriving DecidableEq, Repr

/-- The error codes of ERR_CODE.CODE (60_exceptions.md R251). -/
inductive ErrorKind where
  | none
  | illegal
  | config
  | precond
  | capacity
  | operand
  | empty
  | busy
  | halted
  deriving DecidableEq, Repr

/-- The fields of ERR_CODE (10_state.md R37); bits 63:24 read 0. -/
structure ErrCode where
  code : ErrorKind
  info : BitVec 8
  op : BitVec 8
  deriving DecidableEq, Repr

/-- The bits of INT_STATUS (10_state.md R38); bits 63:2 read 0. -/
structure IntStatus where
  done : Bool
  erri : Bool
  deriving DecidableEq, Repr

/-- The bits of INT_ENABLE (10_state.md R39); bits 63:2 read 0. -/
structure IntEnable where
  doneIe : Bool
  errIe : Bool
  deriving DecidableEq, Repr

/-- The registers of 10_state.md R32 that hold state. ID and CAPS are constants (R33, R34), and CMD holds no readable
state (R35). A register with a 32-bit field holds that field (R51). -/
structure Regs where
  status : Status
  errCode : ErrCode
  intStatus : IntStatus
  intEnable : IntEnable
  bitRate : U32
  carrierFreq : U32
  sampleRate : U32
  nbits : U32
  amplitude : Word
  snrDb : Word
  threshold : Word
  noiseSeed : Word
  noiseCtr : Word
  spb : U32
  tStep : Word
  wn : Word
  txN : U32
  nsamples : U32
  rxN : U32
  rxbN : U32
  sigPower : Word
  noisePower : Word
  berErrors : U32
  berBits : U32
  ber : Word
  lpfB : Vector Word 6
  lpfA : Vector Word 6
  deriving DecidableEq, Repr

/-- The elements of a buffer that have been written, by rising index. An element whose `written` mark (10_state.md
R63) is clear is not listed: it holds no value, and every read of it is a draw. -/
abbrev Buf (α : Type) := List (Nat × α)

/-- The six buffers (10_state.md R60). A bit element holds one bit (R61), a sample element one binary64 word (R62). -/
structure Memory where
  bitsIn : Buf Bool
  bitsOut : Buf Bool
  time : Buf Word
  tx : Buf Word
  rx : Buf Word
  filt : Buf Word
  deriving DecidableEq, Repr

/-- What the outside of the block does next: a transaction on the port (30_encoding.md R111), an access on a byte
bridge that is fitted to the port (20_memory.md R86, R87), or the reset input (70_reset_and_hazards.md R280). -/
inductive HostEvent where
  | transaction (t : Packed)
  | bridgeRead (byteAddr : BitVec 23) (size : Nat)
  | bridgeWrite (byteAddr : BitVec 23) (bytes : List (BitVec 8))
  | powerOnReset
  deriving DecidableEq, Repr

/-- The machine's state. -/
structure State where
  /-- The registers (10_state.md R32). -/
  regs : Regs
  /-- CMD_LATCH, the hidden command latch (10_state.md R31, R65). -/
  cmdLatch : Word
  /-- The buffers, with their `written` marks (10_state.md R60, R63). -/
  mem : Memory
  /-- The model's own: how many draws (00_scope.md R14) have been taken, so that each one is fresh. -/
  draws : Nat
  /-- The model's own: the host's program, what it will issue next first (20_memory.md R92). -/
  inbox : List HostEvent
  /-- The model's own: what the host's reads have returned, the newest first (20_memory.md R82). -/
  responses : List Word
  /-- The model's own: which agent moves at each step where both can; a turn is drawn where none is left
  (20_memory.md R92). -/
  schedule : List Agent
  deriving DecidableEq, Repr

/-- Why the machine stops with a fault: never. "No behaviour of the block is `stuck`: every host access has a step,
and every accepted command has exactly one core step" (93_implementation_defined.md). -/
inductive Fault where
  deriving DecidableEq, Repr

/-- Why an instruction is refused. -/
inductive Refusal where
  /-- Raised by an arm of exec whose instruction has no meaning yet. Safe. -/
  | notModelled (mnemonic : String)
  /-- Raised by the host's step for a packed pattern with DIR = 0 and DATA ≠ 0, which 30_encoding.md R111 excludes ("DATA
  is all zero for a read"). Safe. -/
  | malformedTransaction
  /-- Raised by the host's step for a bridge access that is not a whole word at a multiple of 8: "a model refuses
  it" (20_memory.md R87). Safe. -/
  | partialBridgeAccess
  deriving DecidableEq, Repr

/-- STATUS = 0. -/
def Status.reset : Status where
  busy := false
  err := false
  errMulti := false
  cfgValid := false
  txValid := false
  rxValid := false
  rxbValid := false
  berValid := false

/-- ERR_CODE = 0. -/
def ErrCode.reset : ErrCode where
  code := .none
  info := 0x00#8
  op := 0x00#8

/-- The reset value of every register (10_state.md R32), after power-on reset and after SOFT_RESET. -/
def Regs.reset : Regs where
  status := Status.reset
  errCode := ErrCode.reset
  intStatus := ⟨false, false⟩
  intEnable := ⟨false, false⟩
  bitRate := 0#32
  carrierFreq := 0#32
  sampleRate := 0#32
  nbits := 0#32
  amplitude := 0x3FF0000000000000#64
  snrDb := 0x4014000000000000#64
  threshold := 0x3FE0000000000000#64
  noiseSeed := 0#64
  noiseCtr := 0#64
  spb := 0#32
  tStep := 0#64
  wn := 0#64
  txN := 0#32
  nsamples := 0#32
  rxN := 0#32
  rxbN := 0#32
  sigPower := 0#64
  noisePower := 0#64
  berErrors := 0#32
  berBits := 0#32
  ber := 0#64
  lpfB := Vector.replicate 6 0#64
  lpfA := Vector.replicate 6 0#64

/-- The buffers after power-on: every `written` mark is clear (70_reset_and_hazards.md R280). -/
def Memory.reset : Memory := ⟨[], [], [], [], [], []⟩

/-- The state after power-on reset (70_reset_and_hazards.md R280), with no host program: the block is idle (R281). -/
def State.reset : State where
  regs := Regs.reset
  cmdLatch := 0#64
  mem := Memory.reset
  draws := 0
  inbox := []
  responses := []
  schedule := []

end Sys2Proof.Machine
end

