-- ==== Sys2Proof/Machine/Flags.lean ====
section
/-! DEFINITION. The flags: STATUS, ERR_CODE, INT_STATUS and INT_ENABLE as the words a host reads (spec/10_state.md R36
to R39), the order of the valid flags (R41), and the interrupt output (spec/60_exceptions.md R256). -/

namespace Sys2Proof.Machine

/-- One bit at position n of a word. -/
def bitAt (b : Bool) (n : Nat) : Word := (BitVec.ofBool b).setWidth 64 <<< n

/-- STATUS as it is read (10_state.md R36). -/
def Status.toWord (f : Status) : Word :=
  bitAt f.busy 0 ||| bitAt f.err 1 ||| bitAt f.errMulti 2 ||| bitAt f.cfgValid 3 ||| bitAt f.txValid 4 |||
    bitAt f.rxValid 5 ||| bitAt f.rxbValid 6 ||| bitAt f.berValid 7

/-- The CODE of an error (60_exceptions.md R251). -/
def ErrorKind.toByte : ErrorKind → BitVec 8
  | .none => 0x00#8
  | .illegal => 0x01#8
  | .config => 0x02#8
  | .precond => 0x03#8
  | .capacity => 0x04#8
  | .operand => 0x05#8
  | .empty => 0x06#8
  | .busy => 0x07#8
  | .halted => 0x08#8

/-- ERR_CODE as it is read: CODE, INFO and OP in bits 7:0, 15:8 and 23:16 (10_state.md R37). -/
def ErrCode.toWord (c : ErrCode) : Word :=
  c.code.toByte.setWidth 64 ||| (c.info.setWidth 64 <<< 8) ||| (c.op.setWidth 64 <<< 16)

/-- INT_STATUS as it is read (10_state.md R38). -/
def IntStatus.toWord (i : IntStatus) : Word := bitAt i.done 0 ||| bitAt i.erri 1

/-- INT_ENABLE as it is read (10_state.md R39). -/
def IntEnable.toWord (i : IntEnable) : Word := bitAt i.doneIe 0 ||| bitAt i.errIe 1

/-- The write-one-to-clear of INT_STATUS: `INT_STATUS & ~(v[1:0])` (10_state.md R38). -/
def IntStatus.clear (i : IntStatus) (v : Word) : IntStatus where
  done := i.done && !v.getLsbD 0
  erri := i.erri && !v.getLsbD 1

/-- The write of INT_ENABLE: `zext_64(v[1:0])` (10_state.md R39). -/
def IntEnable.ofWord (v : Word) : IntEnable where
  doneIe := v.getLsbD 0
  errIe := v.getLsbD 1

/-- The five valid flags, in the order of 10_state.md R41. -/
inductive Stage where
  | cfg
  | tx
  | rx
  | rxb
  | ber
  deriving DecidableEq, Repr

/-- Clears a valid flag and every one after it (10_state.md R41). -/
def Status.clearFrom (f : Status) : Stage → Status
  | .cfg => { f with cfgValid := false, txValid := false, rxValid := false, rxbValid := false, berValid := false }
  | .tx => { f with txValid := false, rxValid := false, rxbValid := false, berValid := false }
  | .rx => { f with rxValid := false, rxbValid := false, berValid := false }
  | .rxb => { f with rxbValid := false, berValid := false }
  | .ber => { f with berValid := false }

/-- Sets a stage's valid flag and clears every one after it (10_state.md R41; R147, R166, R189, R208, R233). -/
def Status.validate (f : Status) : Stage → Status
  | .cfg => { f.clearFrom .tx with cfgValid := true }
  | .tx => { f.clearFrom .rx with txValid := true }
  | .rx => { f.clearFrom .rxb with rxValid := true }
  | .rxb => { f.clearFrom .ber with rxbValid := true }
  | .ber => { f with berValid := true }

/-- The interrupt output IRQ, a level that is a function of INT_STATUS and INT_ENABLE (60_exceptions.md R256). -/
def Regs.irq (r : Regs) : Bool :=
  (r.intStatus.done && r.intEnable.doneIe) || (r.intStatus.erri && r.intEnable.errIe)

end Sys2Proof.Machine
end

