-- ==== Sys2Proof/Machine/Ops.lean ====
section
/-! DEFINITION. The named operations on the state: reading and storing buffer elements (spec/10_state.md R60 to R64),
draws (spec/00_scope.md R14), recording an error and ending a command with it (spec/60_exceptions.md R250 to R254),
completing a command (spec/30_encoding.md R115), leaving the error state (spec/60_exceptions.md R257), accepting a
command (spec/30_encoding.md R114) and the two resets (spec/70_reset_and_hazards.md R280, R282). -/

namespace Sys2Proof.Machine

section Buffers

variable {α : Type}

/-- The value of element k, or none where its `written` mark is clear (10_state.md R63). -/
def Buf.read : Buf α → Nat → Option α
  | [], _ => none
  | (j, v) :: rest, k => if j = k then some v else Buf.read rest k

/-- Stores v into element k and sets its mark (10_state.md R63). -/
def Buf.write : Buf α → Nat → α → Buf α
  | [], k, v => [(k, v)]
  | (j, w) :: rest, k, v =>
    if k < j then (k, v) :: (j, w) :: rest
    else if k = j then (k, v) :: rest
    else (j, w) :: Buf.write rest k v

/-- The elements k, k+1, … holding the given values. -/
def Buf.run : Nat → List α → Buf α
  | _, [] => []
  | k, v :: vs => (k, v) :: Buf.run (k + 1) vs

/-- Stores the values into elements 0, 1, … and leaves every later element as it is (10_state.md R64). -/
def Buf.fill (b : Buf α) (vs : List α) : Buf α := Buf.run 0 vs ++ b.filter (fun c => vs.length ≤ c.1)

/-- The canonical form: the indices rise strictly. -/
def Buf.wf : Buf α → Bool
  | [] => true
  | [_] => true
  | (j, _) :: (k, w) :: rest => decide (j < k) && Buf.wf ((k, w) :: rest)

/-- Every listed index is below the capacity. -/
def Buf.within (b : Buf α) (capacity : Nat) : Bool := b.all (fun c => decide (c.1 < capacity))

/-- Reads the elements at the given indices in order; an unwritten one is a fresh draw, n being how many draws have
been taken before. Answers the values and how many draws have been taken after (10_state.md R63). -/
def Buf.readMany (b : Buf α) (draw : Nat → α) : List Nat → Nat → List α × Nat
  | [], n => ([], n)
  | k :: ks, n =>
    match b.read k with
    | some v => let r := Buf.readMany b draw ks n; (v :: r.1, r.2)
    | none => let r := Buf.readMany b draw ks (n + 1); (draw n :: r.1, r.2)

/-- How many of the elements 0, …, n − 1 have never been written: the draws that reading them all takes (10_state.md
R63). -/
def Buf.unwritten (b : Buf α) (n : Nat) : Nat := (List.range n).countP (fun k => (b.read k).isNone)

/-- What reading the elements 0, 1, … in order gives for element k, after `drawn` draws: its value, or a draw of its own
where its `written` mark is clear (10_state.md R63; log entry 4). -/
def Buf.seen (b : Buf α) (draw : Nat → α) (drawn k : Nat) : α := (b.read k).getD (draw (drawn + b.unwritten k))

end Buffers

/-- Every buffer is in canonical form. -/
def Memory.wf (m : Memory) : Bool :=
  m.bitsIn.wf && m.bitsOut.wf && m.time.wf && m.tx.wf && m.rx.wf && m.filt.wf

/-- Every buffer keeps within its capacity (10_state.md R60). -/
def Memory.within (p : Params) (m : Memory) : Bool :=
  m.bitsIn.within p.nMax && m.bitsOut.within p.nMax && m.time.within p.lMax && m.tx.within p.lMax &&
    m.rx.within p.lMax && m.filt.within p.lMax

/-- STATUS changed. -/
def State.setStatus (s : State) (f : Status) : State := { s with regs := { s.regs with status := f } }

/-- BUSY cleared, at the end of a core step (30_encoding.md R115). -/
def State.clearBusy (s : State) : State := s.setStatus { s.regs.status with busy := false }

/-- A value returned to the host (20_memory.md R82). -/
def State.respond (s : State) (v : Word) : State := { s with responses := v :: s.responses }

/-- The error record, `record(code, info, op)` of 60_exceptions.md R252. -/
def Regs.record (r : Regs) (code : ErrorKind) (info op : BitVec 8) : Regs :=
  if r.status.err then
    { r with status := { r.status with errMulti := true }, intStatus := { r.intStatus with erri := true } }
  else
    { r with
      status := { r.status with err := true }
      errCode := ⟨code, info, op⟩
      intStatus := { r.intStatus with erri := true } }

/-- The error record, in the state (60_exceptions.md R252). -/
def State.record (s : State) (code : ErrorKind) (info op : BitVec 8) : State :=
  { s with regs := s.regs.record code info op }

/-- Taking an exception: `raise` records the error and ends the command with no other effect; the core step clears
BUSY and does not set DONE (00_scope.md R12, 60_exceptions.md R252, R254). -/
def State.raise (s : State) (code : ErrorKind) (info op : BitVec 8) : State := (s.record code info op).clearBusy

/-- The end of a core step whose command succeeded: DONE set, BUSY cleared (30_encoding.md R115). -/
def State.complete (s : State) : State :=
  { s with
    regs := { s.regs with
      intStatus := { s.regs.intStatus with done := true }
      status := { s.regs.status with busy := false } } }

/-- The effect of CLEAR_ERROR, the block's trap return (45_system.md R242, 60_exceptions.md R257). -/
def Regs.clearError (r : Regs) : Regs :=
  { r with status := { r.status with err := false, errMulti := false }, errCode := ErrCode.reset }

/-- A command at its core step: its first failing check is raised with no other effect, and with none its effect
takes place and the command completes (30_encoding.md R115, 60_exceptions.md R253, R254). -/
def perform (op : BitVec 8) (check : Option (ErrorKind × BitVec 8)) (effect s : State) : State :=
  match check with
  | some (code, info) => s.raise code info op
  | none => effect.complete

/-- Whether an opcode is allowed while ERR = 1 (30_encoding.md R113, R114). -/
def allowedInError (op : BitVec 8) : Bool := op == 0x00#8 || op == 0x0E#8 || op == 0x0F#8

/-- A write of v to CMD while BUSY = 0: the halted gate, or acceptance (30_encoding.md R114). -/
def State.accept (s : State) (v : Word) : State :=
  if s.regs.status.err && !allowedInError (opOf v) then s.record .halted 0x00#8 (opOf v)
  else { (s.setStatus { s.regs.status with busy := true }) with cmdLatch := v }

/-- The effect of SOFT_RESET: every register at its reset value, so BUSY = 0, and the buffers and their marks kept
(45_system.md R244, 70_reset_and_hazards.md R282). -/
def State.softReset (s : State) : State := { s with regs := Regs.reset }

/-- The reset input: the registers at their reset values, the latch 0 and every `written` mark clear
(70_reset_and_hazards.md R280). The host's program and what it has read are outside the block. -/
def State.powerOnReset (s : State) : State :=
  { s with regs := Regs.reset, cmdLatch := 0#64, mem := Memory.reset }

end Sys2Proof.Machine
end

