-- ==== Sys2Proof/Machine/Operands.lean ====
section
/-! DEFINITION. The operand forms: the register map (spec/10_state.md R32), the address map (spec/20_memory.md R83,
R84), what a host read returns and a host write does, idle or while BUSY = 1 (spec/20_memory.md R85, R88, R89), and how
a command reads its buffers (spec/30_encoding.md R117). -/

namespace Sys2Proof.Machine

/-- The registers of the register map (10_state.md R32). -/
inductive Reg where
  | id
  | caps
  | cmd
  | status
  | errCode
  | intStatus
  | intEnable
  | bitRate
  | carrierFreq
  | sampleRate
  | nbits
  | amplitude
  | snrDb
  | threshold
  | noiseSeed
  | noiseCtr
  | spb
  | tStep
  | wn
  | txN
  | nsamples
  | rxN
  | rxbN
  | sigPower
  | noisePower
  | berErrors
  | berBits
  | ber
  | lpfB (i : Fin 6)
  | lpfA (i : Fin 6)
  deriving DecidableEq, Repr

/-- The word address of a register (10_state.md R32). -/
def Reg.addr : Reg → Nat
  | .id => 0x000
  | .caps => 0x001
  | .cmd => 0x002
  | .status => 0x003
  | .errCode => 0x004
  | .intStatus => 0x005
  | .intEnable => 0x006
  | .bitRate => 0x010
  | .carrierFreq => 0x011
  | .sampleRate => 0x012
  | .nbits => 0x013
  | .amplitude => 0x014
  | .snrDb => 0x015
  | .threshold => 0x016
  | .noiseSeed => 0x017
  | .noiseCtr => 0x018
  | .spb => 0x020
  | .tStep => 0x021
  | .wn => 0x022
  | .txN => 0x023
  | .nsamples => 0x024
  | .rxN => 0x025
  | .rxbN => 0x026
  | .sigPower => 0x027
  | .noisePower => 0x028
  | .berErrors => 0x029
  | .berBits => 0x02A
  | .ber => 0x02B
  | .lpfB i => 0x030 + i.val
  | .lpfA i => 0x038 + i.val

/-- The registers of the register map below the filter's coefficients. -/
def Reg.plain : List Reg :=
  [.id, .caps, .cmd, .status, .errCode, .intStatus, .intEnable, .bitRate, .carrierFreq, .sampleRate, .nbits,
   .amplitude, .snrDb, .threshold, .noiseSeed, .noiseCtr, .spb, .tStep, .wn, .txN, .nsamples, .rxN, .rxbN, .sigPower,
   .noisePower, .berErrors, .berBits, .ber]

/-- Every register of the register map. -/
def Reg.all : List Reg := Reg.plain ++ (List.finRange 6).map Reg.lpfB ++ (List.finRange 6).map Reg.lpfA

/-- The register at an address of 0x000–0x0FF; none at a reserved one (10_state.md R50). -/
def regAt (n : Nat) : Option Reg := Reg.all.find? (fun r => r.addr == n)

/-- The access rights of a register (10_state.md R32). -/
inductive Access where
  | readOnly
  | readWrite
  | writeOneToClear
  | writeOnly
  deriving DecidableEq, Repr

/-- The "access" column of 10_state.md R32. -/
def Reg.access : Reg → Access
  | .id => .readOnly
  | .caps => .readOnly
  | .cmd => .writeOnly
  | .status => .readOnly
  | .errCode => .readOnly
  | .intStatus => .writeOneToClear
  | .intEnable => .readWrite
  | .bitRate => .readWrite
  | .carrierFreq => .readWrite
  | .sampleRate => .readWrite
  | .nbits => .readWrite
  | .amplitude => .readWrite
  | .snrDb => .readWrite
  | .threshold => .readWrite
  | .noiseSeed => .readWrite
  | .noiseCtr => .readOnly
  | .spb => .readOnly
  | .tStep => .readOnly
  | .wn => .readOnly
  | .txN => .readOnly
  | .nsamples => .readOnly
  | .rxN => .readOnly
  | .rxbN => .readOnly
  | .sigPower => .readOnly
  | .noisePower => .readOnly
  | .berErrors => .readOnly
  | .berBits => .readOnly
  | .ber => .readOnly
  | .lpfB _ => .readOnly
  | .lpfA _ => .readOnly

/-- The buffers (10_state.md R60). -/
inductive Window where
  | bitsIn
  | bitsOut
  | time
  | tx
  | rx
  | filt
  deriving DecidableEq, Repr

/-- The base address of a buffer's window (10_state.md R60). -/
def Window.base : Window → Nat
  | .bitsIn => 0x10000
  | .bitsOut => 0x20000
  | .time => 0x40000
  | .tx => 0x50000
  | .rx => 0x60000
  | .filt => 0x70000

/-- The capacity of a buffer (10_state.md R60). -/
def Window.capacity (p : Params) : Window → Nat
  | .bitsIn | .bitsOut => p.nMax
  | .time | .tx | .rx | .filt => p.lMax

/-- Whether the buffer's elements are bits (10_state.md R61). -/
def Window.isBits : Window → Bool
  | .bitsIn | .bitsOut => true
  | .time | .tx | .rx | .filt => false

/-- The buffers, in the order of 10_state.md R60. -/
def Window.all : List Window := [.bitsIn, .bitsOut, .time, .tx, .rx, .filt]

/-- What a word address reaches (20_memory.md R83). -/
inductive Target where
  | reg (r : Reg)
  | elem (w : Window) (i : Nat)
  | reserved
  deriving DecidableEq, Repr

/-- The decoding of a word address (20_memory.md R83, R84). -/
def target (p : Params) (a : Addr) : Target :=
  let n := a.toNat
  match regAt n with
  | some r => .reg r
  | none =>
    match Window.all.find? (fun w => decide (w.base ≤ n ∧ n - w.base < w.capacity p)) with
    | some w => .elem w (n - w.base)
    | none => .reserved

/-- ID (10_state.md R33). -/
def idWord : Word := 0x41534B5F434F5245#64

/-- CAPS: `zext_64(L_MAX) << 32 | zext_64(N_MAX)` (10_state.md R34). -/
def capsWord (p : Params) : Word := (BitVec.ofNat 64 p.lMax <<< 32) ||| BitVec.ofNat 64 p.nMax

/-- What a register reads as while no command runs (10_state.md R33 to R49, R51). -/
def Reg.value (p : Params) (r : Regs) : Reg → Word
  | .id => idWord
  | .caps => capsWord p
  | .cmd => 0#64
  | .status => r.status.toWord
  | .errCode => r.errCode.toWord
  | .intStatus => r.intStatus.toWord
  | .intEnable => r.intEnable.toWord
  | .bitRate => r.bitRate.setWidth 64
  | .carrierFreq => r.carrierFreq.setWidth 64
  | .sampleRate => r.sampleRate.setWidth 64
  | .nbits => r.nbits.setWidth 64
  | .amplitude => r.amplitude
  | .snrDb => r.snrDb
  | .threshold => r.threshold
  | .noiseSeed => r.noiseSeed
  | .noiseCtr => r.noiseCtr
  | .spb => r.spb.setWidth 64
  | .tStep => r.tStep
  | .wn => r.wn
  | .txN => r.txN.setWidth 64
  | .nsamples => r.nsamples.setWidth 64
  | .rxN => r.rxN.setWidth 64
  | .rxbN => r.rxbN.setWidth 64
  | .sigPower => r.sigPower
  | .noisePower => r.noisePower
  | .berErrors => r.berErrors.setWidth 64
  | .berBits => r.berBits.setWidth 64
  | .ber => r.ber
  | .lpfB i => r.lpfB.get i
  | .lpfA i => r.lpfA.get i

/-- The value of a buffer element as a word, none where it has not been written (10_state.md R61 to R63). -/
def Memory.element (m : Memory) (w : Window) (i : Nat) : Option Word :=
  match w with
  | .bitsIn => (m.bitsIn.read i).map (bitAt · 0)
  | .bitsOut => (m.bitsOut.read i).map (bitAt · 0)
  | .time => m.time.read i
  | .tx => m.tx.read i
  | .rx => m.rx.read i
  | .filt => m.filt.read i

/-- The n-th draw at a target, "any 64-bit word, or for a bit element any zero-extended bit" (20_memory.md R88). -/
def Target.draw (p : Params) (n : Nat) : Target → Word
  | .elem w _ => if w.isBits then bitAt (p.freeBit n) 0 else p.freeWord n
  | .reg _ | .reserved => p.freeWord n

/-- The targets that a host reads exactly while BUSY = 1 (20_memory.md R88). -/
def Target.stable : Target → Bool
  | .reg .id | .reg .caps | .reg .status | .reg .errCode | .reg .intStatus | .reg .intEnable | .reserved => true
  | .reg _ | .elem _ _ => false

/-- The value a target holds, none where the rules leave the read a draw (10_state.md R63, 20_memory.md R85, R88). -/
def State.held (p : Params) (s : State) (t : Target) : Option Word :=
  if s.regs.status.busy && !t.stable then none
  else
    match t with
    | .reg r => some (r.value p s.regs)
    | .elem w i => s.mem.element w i
    | .reserved => some 0#64

/-- A host read: the value, and the state with the draw counted where one was taken (20_memory.md R85, R88, R91). -/
def State.hostRead (p : Params) (s : State) (t : Target) : Word × State :=
  match s.held p t with
  | some v => (v, s)
  | none => (t.draw p s.draws, { s with draws := s.draws + 1 })

/-- A write to a configuration register clears all five valid flags, "even if the value is unchanged" (10_state.md
R40). -/
def Regs.invalidate (r : Regs) : Regs := { r with status := r.status.clearFrom .cfg }

/-- What a host write of v stores into a register (10_state.md R38 to R44). A read-only register ignores it (R51), and
CMD is a command's acceptance, which is no store. -/
def Reg.store (v : Word) (r : Regs) : Reg → Regs
  | .intStatus => { r with intStatus := r.intStatus.clear v }
  | .intEnable => { r with intEnable := IntEnable.ofWord v }
  | .bitRate => { r with bitRate := v.extractLsb' 0 32 }.invalidate
  | .carrierFreq => { r with carrierFreq := v.extractLsb' 0 32 }.invalidate
  | .sampleRate => { r with sampleRate := v.extractLsb' 0 32 }.invalidate
  | .nbits => { r with nbits := v.extractLsb' 0 32 }
  | .amplitude => { r with amplitude := v }
  | .snrDb => { r with snrDb := v }
  | .threshold => { r with threshold := v }
  | .noiseSeed => { r with noiseSeed := v, noiseCtr := 0#64 }
  | .cmd => r
  | .id | .caps | .status | .errCode | .noiseCtr | .spb | .tStep | .wn | .txN | .nsamples | .rxN | .rxbN | .sigPower
  | .noisePower | .berErrors | .berBits | .ber | .lpfB _ | .lpfA _ => r

/-- Whether a host write reaches anything: false of reserved addresses, read-only registers and read-only windows
(10_state.md R51, R60; 20_memory.md R85). -/
def Target.writable : Target → Bool
  | .reg r => r.access != .readOnly
  | .elem .bitsIn _ => true
  | .elem _ _ => false
  | .reserved => false

/-- A host write while BUSY = 0 (10_state.md R38 to R44, R51, R61; 20_memory.md R85; 30_encoding.md R114). -/
def State.hostWriteIdle (s : State) (t : Target) (v : Word) : State :=
  match t with
  | .reg .cmd => s.accept v
  | .reg r => { s with regs := r.store v s.regs }
  | .elem .bitsIn i => { s with mem := { s.mem with bitsIn := s.mem.bitsIn.write i (v.getLsbD 0) } }
  | .elem _ _ => s
  | .reserved => s

/-- A host write while BUSY = 1: INT_STATUS and INT_ENABLE are written, a target that ignores writes ignores it, and
every other write is discarded with E_BUSY (20_memory.md R89). -/
def State.hostWriteBusy (s : State) (t : Target) (v : Word) : State :=
  match t with
  | .reg .intStatus => { s with regs := Reg.store v s.regs .intStatus }
  | .reg .intEnable => { s with regs := Reg.store v s.regs .intEnable }
  | t => if t.writable then s.record .busy 0x00#8 0xFF#8 else s

/-- A host write. -/
def State.hostWrite (s : State) (t : Target) (v : Word) : State :=
  if s.regs.status.busy then s.hostWriteBusy t v else s.hostWriteIdle t v

/-- A command's read of bit elements; an unwritten one is a draw (10_state.md R63). -/
def readBits (p : Params) (b : Buf Bool) (ks : List Nat) (n : Nat) : List Bool × Nat := b.readMany p.freeBit ks n

/-- A command's read of sample elements; an unwritten one is a draw (10_state.md R63). -/
def readWords (p : Params) (b : Buf Word) (ks : List Nat) (n : Nat) : List Word × Nat := b.readMany p.freeWord ks n

/-- n fresh words, after `drawn` draws (00_scope.md R14). -/
def drawWords (p : Params) (n drawn : Nat) : List Word := (List.range n).map (fun k => p.freeWord (drawn + k))

end Sys2Proof.Machine
end

