-- ==== Sys2Proof/Machine/BerCounter.lean ====
section
/-! DEFINITION. COMPUTE_BER: the bit-error counter (spec/44_ber_counter.md R230 to R237). -/

namespace Sys2Proof.Machine

/-- The checks of COMPUTE_BER, the first that fails (44_ber_counter.md R232, R234; 60_exceptions.md R253). -/
def computeBerCheck (r : Regs) : Option (ErrorKind × BitVec 8) :=
  if !r.status.cfgValid then some (.precond, 1)
  else if !r.status.rxbValid then some (.precond, 5)
  else if r.nbits ≠ r.rxbN then some (.precond, 6)
  else if r.nbits = 0 then some (.empty, 1)
  else none

/-- The bits BITS_IN[0..N−1] as they stand, and how many draws have been taken after (44_ber_counter.md R231). -/
def berOriginal (p : Params) (s : State) : List Bool × Nat :=
  readBits p s.mem.bitsIn (List.range s.regs.nbits.toNat) s.draws

/-- The bits BITS_OUT[0..N−1], and how many draws have been taken after (44_ber_counter.md R231). -/
def berRecovered (p : Params) (s : State) : List Bool × Nat :=
  readBits p s.mem.bitsOut (List.range s.regs.nbits.toNat) (berOriginal p s).2

/-- `e = #{i < N : BITS_IN[i] ≠ BITS_OUT[i]}` (44_ber_counter.md R231). -/
def errorCount (original recovered : List Bool) : Nat :=
  ((original.zip recovered).filter (fun b => b.1 != b.2)).length

/-- The state after the effect of a COMPUTE_BER whose checks pass (44_ber_counter.md R230, R233). -/
def computeBerEffect (p : Params) (s : State) : State :=
  let n := s.regs.nbits.toNat
  let e := errorCount (berOriginal p s).1 (berRecovered p s).1
  { s with
    regs := { s.regs with
      berErrors := BitVec.ofNat 32 e
      berBits := s.regs.nbits
      ber := r64 ((e : ℚ) / (n : ℚ))
      status := s.regs.status.validate .ber }
    draws := (berRecovered p s).2 }

/-- COMPUTE_BER at its core step (44_ber_counter.md R230). -/
def computeBer (p : Params) (s : State) : State :=
  perform 0x05#8 (computeBerCheck s.regs) (computeBerEffect p s) s

/-- The meaning of COMPUTE_BER. -/
def execComputeBer (s : State) : Host.Outcome State Fault Refusal := .next (computeBer Config.params s)

end Sys2Proof.Machine
end

