-- ==== Sys2Proof/Machine/Channel.lean ====
section
/-! DEFINITION. ADD_NOISE: the power estimator, the SNR scaler, the Gaussian source and the adder
(spec/42_awgn_channel.md R180 to R192). -/

namespace Sys2Proof.Machine

/-- The words TX[0..L−1], L = NSAMPLES, and how many draws have been taken after (42_awgn_channel.md R180). -/
def channelInput (p : Params) (s : State) : List Word × Nat :=
  readWords p s.mem.tx (List.range s.regs.nsamples.toNat) s.draws

/-- The all-zero test of the zero-power branch, exact on the words and true of no words (42_awgn_channel.md R182). -/
def allZero (tx : List Word) : Bool := tx.all (fun w => dec w == .fin 0)

/-- The power estimator: the exact mean square over all samples (42_awgn_channel.md R183). The spec states no power of
a waveform that holds a non-finite word: there it is a free value (log entry 7). -/
def signalPower (p : Params) (tx : List Word) : ℚ :=
  if tx.all isFinite then (tx.map (fun w => decQ w ^ 2)).sum / (tx.length : ℚ) else (p.freePower tx : ℚ)

/-- The checks of ADD_NOISE, the first that fails (42_awgn_channel.md R181, R184; 60_exceptions.md R253). -/
def addNoiseCheck (r : Regs) (tx : List Word) : Option (ErrorKind × BitVec 8) :=
  if !r.status.cfgValid then some (.precond, 1)
  else if !r.status.txValid then some (.precond, 2)
  else if !allZero tx && (isNaN r.snrDb || r.snrDb == negInf) then some (.operand, 2)
  else none

/-- The branch that a waveform and a target SNR select, with the powers it uses (42_awgn_channel.md R180). -/
inductive NoisePlan where
  /-- The zero-power branch (R182). -/
  | silent
  /-- SNR_DB = +∞: the noise stage is skipped (R185). -/
  | skipped (ps : ℚ)
  /-- A finite SNR_DB (R185, R187). -/
  | scaled (ps : ℚ) (pn : Power)

/-- The branch selected (42_awgn_channel.md R180, R182, R185). -/
def noisePlan (p : Params) (tx : List Word) (snr : Word) : NoisePlan :=
  if allZero tx then .silent
  else if snr = posInf then .skipped (signalPower p tx)
  else .scaled (signalPower p tx) (p.num.noisePower (signalPower p tx) snr)

/-- `R64(dec(w))`: "word for word except that −0.0 becomes +0.0" (42_awgn_channel.md R185), a non-finite word included
(log entry 8). -/
def requantise (w : Word) : Word := if isFinite w then r64 (decQ w) else w

/-- The unit draw `z_k = GAUSS(NOISE_SEED, (NOISE_CTR + k) mod 2^64)` (42_awgn_channel.md R186). -/
def unitDraw (p : Params) (seed ctr : Word) (k : Nat) : ℝ := p.gauss seed ((ctr.toNat + k) % 2 ^ 64)

/-- The noisy sample k of a word w (42_awgn_channel.md R180, R182, R185, R187). -/
def NoisePlan.sample (p : Params) (seed ctr : Word) (plan : NoisePlan) (k : Nat) (w : Word) : Word :=
  match plan with
  | .silent => posZero
  | .skipped _ => requantise w
  | .scaled _ pn => if pn.isZero then requantise w else p.num.noisy w pn.val (unitDraw p seed ctr k)

/-- `R64(P_s)` (42_awgn_channel.md R188). -/
def NoisePlan.sigPowerWord : NoisePlan → Word
  | .silent => posZero
  | .skipped ps => r64 ps
  | .scaled ps _ => r64 ps

/-- `R64(P_n)` (42_awgn_channel.md R188). -/
def NoisePlan.noisePowerWord : NoisePlan → Word
  | .silent => posZero
  | .skipped _ => posZero
  | .scaled _ pn => pn.word

/-- The RX words (42_awgn_channel.md R180). -/
def rxWords (p : Params) (seed ctr : Word) (plan : NoisePlan) (tx : List Word) : List Word :=
  tx.mapIdx (fun k w => plan.sample p seed ctr k w)

/-- The state after the effect of an ADD_NOISE whose checks pass (42_awgn_channel.md R180, R188, R189). -/
def addNoiseEffect (p : Params) (s : State) : State :=
  let tx := channelInput p s
  let plan := noisePlan p tx.1 s.regs.snrDb
  { s with
    mem := { s.mem with rx := s.mem.rx.fill (rxWords p s.regs.noiseSeed s.regs.noiseCtr plan tx.1) }
    regs := { s.regs with
      noiseCtr := s.regs.noiseCtr + s.regs.nsamples.setWidth 64
      sigPower := plan.sigPowerWord
      noisePower := plan.noisePowerWord
      rxN := s.regs.txN
      status := s.regs.status.validate .rx }
    draws := tx.2 }

/-- ADD_NOISE at its core step (42_awgn_channel.md R180). -/
def addNoise (p : Params) (s : State) : State :=
  perform 0x03#8 (addNoiseCheck s.regs (channelInput p s).1) (addNoiseEffect p s) s

/-- The meaning of ADD_NOISE. -/
def execAddNoise (s : State) : Host.Outcome State Fault Refusal := .next (addNoise Config.params s)

end Sys2Proof.Machine
end

