-- ==== Sys2Proof/Machine/Configure.lean ====
section
/-! DEFINITION. CONFIG: the system configuration and the filter design (spec/40_config.md R140 to R149). -/

namespace Sys2Proof.Machine

/-- The checks of CONFIG, the first that fails (40_config.md R141, R142; 60_exceptions.md R253). -/
def configCheck (r : Regs) : Option (ErrorKind × BitVec 8) :=
  let br := r.bitRate.toNat
  let fc := r.carrierFreq.toNat
  let fs := r.sampleRate.toNat
  if br = 0 ∨ fc = 0 ∨ fs = 0 then some (.config, 1)
  else if fs < br then some (.config, 2)
  else if fs ≤ 2 * fc then some (.config, 3)
  else none

/-- `spb = fs div br` (40_config.md R143). -/
def samplesPerBit (br fs : Nat) : Nat := fs / br

/-- `M = br × spb`, the divisor of the time base (40_config.md R143). -/
def timeBase (br spb : Nat) : Nat := br * spb

/-- The words of LPF_B0–B5 (40_config.md R141, R145). -/
def lpfBWords (c : Coeffs) : Vector Word 6 := c.b.map (·.word)

/-- The words of LPF_A0–A5, LPF_A0 being 1.0 (40_config.md R141, R145; 10_state.md R46). -/
def lpfAWords (c : Coeffs) : Vector Word 6 := Vector.ofFn (Fin.cases (r64 (1 : ℚ)) (fun j => (c.aTail.get j).word))

/-- The registers after a CONFIG whose checks pass (40_config.md R141, R147). -/
def configRegs (p : Params) (r : Regs) : Regs :=
  let br := r.bitRate.toNat
  let fc := r.carrierFreq.toNat
  let fs := r.sampleRate.toNat
  let spb := samplesPerBit br fs
  let coeffs := p.num.lpfCoeffs fc fs
  { r with
    spb := BitVec.ofNat 32 spb
    tStep := r64 (1 / (timeBase br spb : ℚ))
    wn := r64 (2 * (fc : ℚ) / (fs : ℚ))
    lpfB := lpfBWords coeffs
    lpfA := lpfAWords coeffs
    status := r.status.validate .cfg }

/-- CONFIG at its core step (40_config.md R141). -/
def config (p : Params) (s : State) : State :=
  perform 0x01#8 (configCheck s.regs) { s with regs := configRegs p s.regs } s

/-- The meaning of CONFIG. -/
def execConfig (s : State) : Host.Outcome State Fault Refusal := .next (config Config.params s)

end Sys2Proof.Machine
end

