-- ==== Sys2Proof/Machine/Demodulator.lean ====
section
/-! DEFINITION. DEMODULATE: the rectifier, the lpf_filter, the sampler and the comparator
(spec/43_envelope_demod.md R200 to R212). -/

namespace Sys2Proof.Machine

/-- The checks of DEMODULATE, the first that fails (43_envelope_demod.md R202; 60_exceptions.md R253). -/
def demodulateCheck (r : Regs) : Option (ErrorKind × BitVec 8) :=
  if !r.status.cfgValid then some (.precond, 1)
  else if !r.status.rxValid then some (.precond, 3)
  else if r.nbits ≠ r.rxN then some (.precond, 4)
  else if !isFinite r.threshold then some (.operand, 3)
  else none

/-- The words RX[0..L−1], L = N × spb, and how many draws have been taken after (43_envelope_demod.md R200). -/
def demodInput (p : Params) (s : State) : List Word × Nat :=
  readWords p s.mem.rx (List.range (s.regs.nbits.toNat * s.regs.spb.toNat)) s.draws

/-- The rectified samples `|dec(RX[n])|` before the first non-finite one (43_envelope_demod.md R203, R209). -/
def rectified (rx : List Word) : List ℚ := (rx.takeWhile isFinite).map (fun w => |decQ w|)

/-- The filter's output at the last of the given inputs. An input of zeros gives +0.0 under every NUM
(43_envelope_demod.md R204, R210(d); log entry 6). -/
def lowPass (num : Numerics) (c : Coeffs) (xs : List ℚ) : Word :=
  if xs.all (· == 0) then posZero else num.lpf c.bAt c.aAt (xs.map (fun x : ℚ => (x : ℝ)))

/-- The filter's outputs for the given inputs, the n-th from the inputs 0..n alone (43_envelope_demod.md R204). -/
def lowPassAll (num : Numerics) (c : Coeffs) (xs : List ℚ) : List Word :=
  (List.range xs.length).map (fun n => lowPass num c (xs.take (n + 1)))

/-- The FILT words: the filter's outputs up to the first non-finite sample, and draws from there on
(43_envelope_demod.md R204, R209). -/
def filtWords (p : Params) (c : Coeffs) (rx : List Word) (drawn : Nat) : List Word :=
  let good := lowPassAll p.num c (rectified rx)
  good ++ drawWords p (rx.length - good.length) drawn

/-- The sampling index `idx_i = i × spb + (spb div 2)` (43_envelope_demod.md R205). -/
def samplingIndex (spb i : Nat) : Nat := i * spb + spb / 2

/-- The comparator: 1 iff `dec(FILT[idx_i]) > dec(THRESHOLD)` (43_envelope_demod.md R206). -/
def comparator (threshold w : Word) : Bool := (dec w).gt (dec threshold)

/-- The filter that DEMODULATE uses, `NUM.lpfCoeffs` of the configuration registers (43_envelope_demod.md R200). -/
def demodCoeffs (p : Params) (r : Regs) : Coeffs := p.num.lpfCoeffs r.carrierFreq.toNat r.sampleRate.toNat

/-- FILT after the filter has run, and how many draws have been taken after (43_envelope_demod.md R200, R207). -/
def demodFilt (p : Params) (s : State) : Buf Word × Nat :=
  let rx := demodInput p s
  let words := filtWords p (demodCoeffs p s.regs) rx.1 rx.2
  (s.mem.filt.fill words, rx.2 + (rx.1.length - (rectified rx.1).length))

/-- The FILT words at the N sampling indices, read back from the buffer, and how many draws have been taken after
(43_envelope_demod.md R205, R206). -/
def demodSamples (p : Params) (s : State) : List Word × Nat :=
  let filt := demodFilt p s
  readWords p filt.1 ((List.range s.regs.nbits.toNat).map (samplingIndex s.regs.spb.toNat)) filt.2

/-- The state after the effect of a DEMODULATE whose checks pass (43_envelope_demod.md R200, R207, R208). -/
def demodulateEffect (p : Params) (s : State) : State :=
  let samples := demodSamples p s
  { s with
    mem := { s.mem with
      filt := (demodFilt p s).1
      bitsOut := s.mem.bitsOut.fill (samples.1.map (comparator s.regs.threshold)) }
    regs := { s.regs with
      rxbN := s.regs.nbits
      status := s.regs.status.validate .rxb }
    draws := samples.2 }

/-- DEMODULATE at its core step (43_envelope_demod.md R200). -/
def demodulate (p : Params) (s : State) : State :=
  perform 0x04#8 (demodulateCheck s.regs) (demodulateEffect p s) s

/-- The meaning of DEMODULATE. -/
def execDemodulate (s : State) : Host.Outcome State Fault Refusal := .next (demodulate Config.params s)

end Sys2Proof.Machine
end

