-- ==== Sys2Proof/Machine/Modulator.lean ====
section
/-! DEFINITION. MODULATE: the bit-rate sampler and the sinusoid generator (spec/41_ask_modulator.md R160 to R169). -/

namespace Sys2Proof.Machine

/-- The checks of MODULATE, the first that fails (41_ask_modulator.md R162; 60_exceptions.md R253). -/
def modulateCheck (p : Params) (r : Regs) : Option (ErrorKind × BitVec 8) :=
  if !r.status.cfgValid then some (.precond, 1)
  else if !isFinite r.amplitude then some (.operand, 1)
  else if p.nMax < r.nbits.toNat then some (.capacity, 1)
  else if p.lMax < r.nbits.toNat * r.spb.toNat then some (.capacity, 2)
  else none

/-- The time-stamp `R64(k / M)` of sample k (41_ask_modulator.md R161). -/
def timeSample (m k : Nat) : Word := r64 ((k : ℚ) / (m : ℚ))

/-- The phase numerator `p_k = (fc × k) mod M` of sample k (41_ask_modulator.md R163). -/
def phase (fc m k : Nat) : Nat := fc * k % m

/-- Sample k of the waveform: the carrier where its bit is 1, and +0.0 where it is 0 (41_ask_modulator.md R163). -/
def txSample (p : Params) (amplitude : Word) (fc m : Nat) (bit : Bool) (k : Nat) : Word :=
  if bit then p.num.carrier amplitude (phase fc m k) m else posZero

/-- The TIME words of a waveform of L samples (41_ask_modulator.md R161). -/
def timeWords (m l : Nat) : List Word := (List.range l).map (timeSample m)

/-- The TX words of a waveform of L samples; sample k carries bit `k div spb` (41_ask_modulator.md R160, R163). -/
def txWords (p : Params) (amplitude : Word) (fc m spb l : Nat) (bits : List Bool) : List Word :=
  (List.range l).map (fun k => txSample p amplitude fc m (bits.getD (k / spb) false) k)

/-- The bits that MODULATE reads, each BITS_IN[i] with i < N exactly once, and how many draws have been taken after
(41_ask_modulator.md R164). -/
def modulateBits (p : Params) (s : State) : List Bool × Nat :=
  readBits p s.mem.bitsIn (List.range s.regs.nbits.toNat) s.draws

/-- The state after the effect of a MODULATE whose checks pass (41_ask_modulator.md R160, R166). -/
def modulateEffect (p : Params) (s : State) : State :=
  let n := s.regs.nbits.toNat
  let spb := s.regs.spb.toNat
  let m := timeBase s.regs.bitRate.toNat spb
  let l := n * spb
  let bits := modulateBits p s
  { s with
    mem := { s.mem with
      time := s.mem.time.fill (timeWords m l)
      tx := s.mem.tx.fill (txWords p s.regs.amplitude s.regs.carrierFreq.toNat m spb l bits.1) }
    regs := { s.regs with
      txN := s.regs.nbits
      nsamples := BitVec.ofNat 32 l
      status := s.regs.status.validate .tx }
    draws := bits.2 }

/-- MODULATE at its core step (41_ask_modulator.md R160). -/
def modulate (p : Params) (s : State) : State :=
  perform 0x02#8 (modulateCheck p s.regs) (modulateEffect p s) s

/-- The meaning of MODULATE. -/
def execModulate (s : State) : Host.Outcome State Fault Refusal := .next (modulate Config.params s)

end Sys2Proof.Machine
end

