-- ==== Sys2Proof/Machine/Port.lean ====
section
/-! DEFINITION. The host transactions RD and WR (spec/30_encoding.md R111, spec/20_memory.md R80 to R97). -/

namespace Sys2Proof.Machine

/-- The meaning of WR: `MemWrite(addr, 8, data)`. -/
def execWr (addr : Addr) (data : Word) (s : State) : Host.Outcome State Fault Refusal :=
  .next (s.hostWrite (target Config.params addr) data)

/-- The state after a read, its value returned to the host. -/
def readPort (p : Params) (addr : Addr) (s : State) : State :=
  let r := s.hostRead p (target p addr)
  r.2.respond r.1

/-- The meaning of RD: `MemRead(addr, 8)`. -/
def execRd (addr : Addr) (s : State) : Host.Outcome State Fault Refusal := .next (readPort Config.params addr s)

end Sys2Proof.Machine
end

