-- ==== Sys2Proof/Machine/System.lean ====
section
/-! DEFINITION. The system commands NOP, CLEAR_ERROR and SOFT_RESET (spec/45_system.md R240 to R245). -/

namespace Sys2Proof.Machine

/-- The meaning of NOP: no effect; the core step sets DONE and clears BUSY (45_system.md R240). -/
def execNop (s : State) : Host.Outcome State Fault Refusal := .next s.complete

/-- The meaning of CLEAR_ERROR: the error state is left, and the core step sets DONE (45_system.md R242). -/
def execClearError (s : State) : Host.Outcome State Fault Refusal :=
  .next { s with regs := s.regs.clearError }.complete

/-- The meaning of SOFT_RESET: the core step does not set DONE for it (45_system.md R244, 30_encoding.md R115). -/
def execSoftReset (s : State) : Host.Outcome State Fault Refusal := .next s.softReset

end Sys2Proof.Machine
end

