-- ==== Sys2Proof/Machine/Dispatch.lean ====
section
/-! DEFINITION. The dispatch: one arm per instruction, one meaning per arm. -/

namespace Sys2Proof.Machine

def exec (i : Instr) (s : State) : Host.Outcome State Fault Refusal :=
  match i with
  | .nop => Sys2Proof.Machine.execNop s
  | .config => Sys2Proof.Machine.execConfig s
  | .modulate => Sys2Proof.Machine.execModulate s
  | .addNoise => Sys2Proof.Machine.execAddNoise s
  | .demodulate => Sys2Proof.Machine.execDemodulate s
  | .computeBer => Sys2Proof.Machine.execComputeBer s
  | .clearError => Sys2Proof.Machine.execClearError s
  | .softReset => Sys2Proof.Machine.execSoftReset s
  | .wr addr data => Sys2Proof.Machine.execWr addr data s
  | .rd addr => Sys2Proof.Machine.execRd addr s

end Sys2Proof.Machine
end

