-- ==== Sys2Proof/Machine/Sequencer.lean ====
section
/-! DEFINITION. The two agents' steps: the core step of an accepted command (spec/30_encoding.md R115), the host's next
transaction (spec/20_memory.md R92), and which of the two moves (spec/20_memory.md R92, spec/70_reset_and_hazards.md R294). -/

namespace Sys2Proof.Machine

/-- The opcode and the reserved bits of the latched word are checked, in that order, before the command is performed
(30_encoding.md R115, R116). -/
def coreStep (s : State) : Host.Outcome State Fault Refusal :=
  match decodeCommand s.cmdLatch with
  | .ok i => exec i s
  | .error why => .next (s.raise .illegal why.info (opOf s.cmdLatch))

/-- One event at the block's outside: a transaction (30_encoding.md R111), a bridge access (20_memory.md R86, R87) or
the reset input (70_reset_and_hazards.md R280). -/
def hostEvent (e : HostEvent) (s : State) : Host.Outcome State Fault Refusal :=
  match e with
  | .transaction t =>
    match decodeTransaction t with
    | some i => exec i s
    | none => .refused .malformedTransaction
  | .bridgeRead a size =>
    if bridgeWellFormed a size then exec (.rd (wordAddrOfByte a)) s else .refused .partialBridgeAccess
  | .bridgeWrite a bytes =>
    if bridgeWellFormed a bytes.length then exec (.wr (wordAddrOfByte a) (wordOfBytes bytes)) s
    else .refused .partialBridgeAccess
  | .powerOnReset => .next s.powerOnReset

/-- The host's next event, taken from its program. -/
def hostStep (s : State) : Host.Outcome State Fault Refusal :=
  match s.inbox with
  | [] => .next s
  | e :: rest => hostEvent e { s with inbox := rest }

/-- Which agent moves next, and the state with the turn taken: none where the block is idle and the host has nothing
to issue. The core step is enabled exactly while BUSY = 1 (30_encoding.md R115). Where both agents can move, the order is open
(20_memory.md R92): the schedule gives it, and a draw where the schedule is empty. -/
def nextAgent (p : Params) (s : State) : Option (Agent × State) :=
  match s.regs.status.busy, s.inbox with
  | false, [] => none
  | true, [] => some (.core, s)
  | false, _ :: _ => some (.host, s)
  | true, _ :: _ =>
    match s.schedule with
    | a :: rest => some (a, { s with schedule := rest })
    | [] => some (p.freeAgent s.draws, { s with draws := s.draws + 1 })

/-- One step of the machine: the next agent's; an idle block stays as it is (60_exceptions.md R272). -/
def agentStep (p : Params) (s : State) : Host.Outcome State Fault Refusal :=
  match nextAgent p s with
  | none => .next s
  | some (.core, s') => coreStep s'
  | some (.host, s') => hostStep s'

/-- The state whose very next step runs the given instruction: a command stands accepted, with nothing for the host to
issue; a transaction is the host's next, with the block idle (log entry 10). -/
def State.place (s : State) : Encoded → State
  | .command w => { (s.setStatus { s.regs.status with busy := true }) with cmdLatch := w, inbox := [] }
  | .transaction t => { (s.setStatus { s.regs.status with busy := false }) with inbox := [.transaction t] }

end Sys2Proof.Machine
end

