-- ==== Sys2Proof/Machine/Step.lean ====
section
/-! DEFINITION. One step of the machine, and where the next instruction is placed. -/

namespace Sys2Proof.Machine

/-- One step of the machine. -/
def step (s : State) : Host.Outcome State Fault Refusal := agentStep Config.params s

/-- The state whose next step runs the instruction with the opcode table's bits. -/
def State.withFetchWord (s : State) (nbits w : Nat) : State := s.place (encodedOfTable nbits w)

end Sys2Proof.Machine
end

