-- ==== Sys2Proof/Machine/Ideal.lean ====
section
/-! DEFINITION. IDEAL, the reference instance of NUM: each field exact over the reals, rounded once (spec/00_scope.md R16,
spec/40_config.md R145, spec/43_envelope_demod.md R204). The machine does not depend on it: its NUM is open (log entry 2).
Its definitions are noncomputable, being about reals; no step runs them. -/

namespace Sys2Proof.Machine

open Polynomial (C X)

/-- A real with its rounding. -/
noncomputable def RealVal.of (v : ℝ) : RealVal := ⟨v, r64 v, rfl⟩

/-- A power with its rounding. -/
noncomputable def Power.of (v : NNReal) : Power := ⟨v, r64 (v : ℝ), decide (v = 0), rfl, by simp⟩

/-- `carrier(A, p, M) = R64(dec(A) × sin(2π × p / M))` (00_scope.md R16). -/
noncomputable def idealCarrier (a : Word) (p m : Nat) : Word :=
  r64 ((decQ a : ℝ) * Real.sin (2 * Real.pi * p / m))

/-- `noisePower(Ps, snr) = Ps / 10^(dec(snr)/10)` for finite snr, and 0 for snr = +∞ (00_scope.md R16). -/
noncomputable def idealNoisePower (ps : ℚ) (snr : Word) : NNReal :=
  if snr = posInf then 0 else Real.toNNReal ((ps : ℝ) / (10 : ℝ) ^ ((decQ snr : ℝ) / 10))

/-- `noisy(s, Pn, z) = R64(dec(s) + sqrt(Pn) × z)` (00_scope.md R16). -/
noncomputable def idealNoisy (s : Word) (pn : NNReal) (z : ℝ) : Word :=
  r64 ((decQ s : ℝ) + Real.sqrt (pn : ℝ) * z)

/-- The coefficients β0..β5 of the normalised 5th-order Butterworth polynomial (40_config.md R145). -/
noncomputable def butterworth : Fin 6 → ℝ :=
  ![1, 1 + Real.sqrt 5, 3 + Real.sqrt 5, 3 + Real.sqrt 5, 1 + Real.sqrt 5, 1]

/-- The prewarped cutoff `c = tan(π × fc / fs)` (40_config.md R145). -/
noncomputable def cutoff (fc fs : Nat) : ℝ := Real.tan (Real.pi * fc / fs)

/-- `D(x) = Σ βm × c^(5−m) × (1 − x)^m × (1 + x)^(5−m)` (40_config.md R145). -/
noncomputable def denominatorPoly (c : ℝ) : Polynomial ℝ :=
  ∑ m : Fin 6, C (butterworth m * c ^ (5 - m.val)) * (1 - X) ^ m.val * (1 + X) ^ (5 - m.val)

/-- `a_i = d_i / d0` (40_config.md R145). -/
noncomputable def idealA (c : ℝ) (i : Nat) : ℝ := (denominatorPoly c).coeff i / (denominatorPoly c).coeff 0

/-- `b_i = C(5, i) × c^5 / d0` (40_config.md R145). -/
noncomputable def idealB (c : ℝ) (i : Nat) : ℝ := (Nat.choose 5 i : ℝ) * c ^ 5 / (denominatorPoly c).coeff 0

/-- `lpfCoeffs`, the exact design (40_config.md R145). -/
noncomputable def idealLpfCoeffs (fc fs : Nat) : Coeffs where
  b := Vector.ofFn (fun i => RealVal.of (idealB (cutoff fc fs) i.val))
  aTail := Vector.ofFn (fun i => RealVal.of (idealA (cutoff fc fs) (i.val + 1)))

/-- The next output of the recursion, from the inputs and the past outputs, each the newest first; what lies before
the start is 0 (43_envelope_demod.md R204). -/
def filterOutput (b a : Fin 6 → ℝ) (xs ys : List ℝ) : ℝ :=
  ∑ i : Fin 6, b i * xs.getD i.val 0 - ∑ i : Fin 5, a i.succ * ys.getD i.val 0

/-- The outputs of the recursion for the inputs, the newest first (43_envelope_demod.md R204). -/
def filterOutputs (b a : Fin 6 → ℝ) : List ℝ → List ℝ
  | [] => []
  | x :: past => filterOutput b a (x :: past) (filterOutputs b a past) :: filterOutputs b a past

/-- `lpf`: the exact recursion from rest, its last output rounded (00_scope.md R16, 43_envelope_demod.md R204). -/
noncomputable def idealLpf (b a : Fin 6 → ℝ) (xs : List ℝ) : Word :=
  r64 ((filterOutputs b a xs.reverse).headD 0)

/-- The reference instance IDEAL of NUM (00_scope.md R16). -/
noncomputable def idealNum : Numerics where
  carrier := idealCarrier
  noisePower := fun ps snr => Power.of (idealNoisePower ps snr)
  noisy := idealNoisy
  lpfCoeffs := idealLpfCoeffs
  lpf := idealLpf

end Sys2Proof.Machine
end

