-- ==== Sys2Proof/Safety.lean ====
section
/-! DEFINITION. What the rules promise of every state a run can reach: the invariant that claims about the machine use. -/

namespace Sys2Proof.Machine

/-- "BER_VALID ⇒ RXB_VALID ⇒ RX_VALID ⇒ TX_VALID ⇒ CFG_VALID" (10_state.md R41). -/
def Status.chained (f : Status) : Prop :=
  (f.berValid = true → f.rxbValid = true) ∧ (f.rxbValid = true → f.rxValid = true) ∧
    (f.rxValid = true → f.txValid = true) ∧ (f.txValid = true → f.cfgValid = true)

/-- "CODE = 0 (E_NONE) iff STATUS.ERR = 0" (10_state.md R37), with ERR_CODE wholly 0 and ERR_MULTI clear while ERR = 0
(60_exceptions.md R252, 45_system.md R242); E_HALTED "never appears in CODE" (60_exceptions.md R251). -/
def Regs.errorSound (r : Regs) : Prop :=
  (r.status.err = false → r.errCode = ErrCode.reset ∧ r.status.errMulti = false) ∧
    (r.status.err = true → r.errCode.code ≠ .none ∧ r.errCode.code ≠ .halted)

/-- While CFG_VALID = 1 the configuration passes CONFIG's checks and the derived registers belong to it (10_state.md
R40, R41, R45, R46; 40_config.md R141). -/
def Regs.configSound (p : Params) (r : Regs) : Prop :=
  r.status.cfgValid = true →
    configCheck r = none ∧
    r.spb.toNat = samplesPerBit r.bitRate.toNat r.sampleRate.toNat ∧
    r.tStep = r64 (1 / (timeBase r.bitRate.toNat r.spb.toNat : ℚ)) ∧
    r.wn = r64 (2 * (r.carrierFreq.toNat : ℚ) / (r.sampleRate.toNat : ℚ)) ∧
    r.lpfB = lpfBWords (p.num.lpfCoeffs r.carrierFreq.toNat r.sampleRate.toNat) ∧
    r.lpfA = lpfAWords (p.num.lpfCoeffs r.carrierFreq.toNat r.sampleRate.toNat)

/-- The length registers agree along the chain (10_state.md R47, 43_envelope_demod.md R201). -/
def Regs.lengthsSound (p : Params) (r : Regs) : Prop :=
  (r.status.txValid = true →
    r.txN.toNat ≤ p.nMax ∧ r.nsamples.toNat = r.txN.toNat * r.spb.toNat ∧ r.nsamples.toNat ≤ p.lMax) ∧
  (r.status.rxValid = true → r.rxN = r.txN) ∧
  (r.status.rxbValid = true → r.rxbN = r.rxN)

/-- The result registers hold a count of errors, a positive length and their ratio (44_ber_counter.md R233, R235). -/
def Regs.resultSound (r : Regs) : Prop :=
  r.status.berValid = true →
    0 < r.berBits.toNat ∧ r.berErrors.toNat ≤ r.berBits.toNat ∧ r.berBits = r.rxbN ∧
    r.ber = r64 ((r.berErrors.toNat : ℚ) / (r.berBits.toNat : ℚ))

/-- The current sequence of each valid stage is written whole (43_envelope_demod.md R201). -/
def State.written (s : State) : Prop :=
  (s.regs.status.txValid = true →
    ∀ k, k < s.regs.nsamples.toNat → (s.mem.time.read k).isSome ∧ (s.mem.tx.read k).isSome) ∧
  (s.regs.status.rxValid = true → ∀ k, k < s.regs.nsamples.toNat → (s.mem.rx.read k).isSome) ∧
  (s.regs.status.rxbValid = true →
    (∀ k, k < s.regs.nsamples.toNat → (s.mem.filt.read k).isSome) ∧
    (∀ i, i < s.regs.rxbN.toNat → (s.mem.bitsOut.read i).isSome))

/-- The end of a host program's run: its last transaction has completed and BUSY = 0 (70_reset_and_hazards.md R297). -/
def State.ended (s : State) : Prop := s.inbox = [] ∧ s.regs.status.busy = false

/-- The invariant of every reachable state. -/
structure State.Inv (p : Params) (s : State) : Prop where
  chained : s.regs.status.chained
  errorSound : s.regs.errorSound
  configSound : s.regs.configSound p
  lengthsSound : s.regs.lengthsSound p
  resultSound : s.regs.resultSound
  written : s.written
  memWf : s.mem.wf = true
  memWithin : s.mem.within p = true

end Sys2Proof.Machine
end

