-- ==== Sys2Proof/Certificates/Slice0/Obligations.lean ====
section
/-! DEFINITION. The statements for the provers, each formalising rules of the spec. `Config.params` is any instance of
the implementation parameters, so that a statement about it holds for every NUM, GAUSS, N_MAX and L_MAX. -/

open Sys2Proof Sys2Proof.Machine

/-! ## Encoding -/

/-- Decoding and encoding are inverse to each other, at every operand value and for both levels (30_encoding.md R111,
R112, R113, R116): each instruction has exactly one encoding and it decodes to that instruction. -/
def Obligations.DecodeInvertsEncode : Prop :=
  ∀ (e : Encoded) (i : Instr), decode e = .ok i ↔ encode i = e

/-- The worked encodings of 30_encoding.md R123.
R123 is marked as derived by the spec. -/
def Obligations.WorkedEncodingsDecode : Prop :=
  encode (.wr 0x00002#20 0x0000000000000002#64) = .transaction 0x1000020000000000000002#85 ∧
  decodeCommand 0x0000000000000002#64 = .ok .modulate ∧
  r64 (1 / 2 : ℚ) = 0x3FE0000000000000#64 ∧
  Reg.threshold.addr = 0x016 ∧
  (∀ p : Params, 3 < p.nMax → target p 0x20003#20 = .elem .bitsOut 3) ∧
  opOf 0x0000000000000102#64 = 0x02#8 ∧
  (∀ s : State, s.cmdLatch = 0x0000000000000102#64 → coreStep s = .next (s.raise .illegal 0x02#8 0x02#8))

/-- Reserved and illegal command words (30_encoding.md R116): an OP of 0x06–0x0D or 0x10–0xFF raises E_ILLEGAL(1) at the
core step, a defined OP with RES ≠ 0 raises E_ILLEGAL(2), and no word but that of NOP runs as a NOP. -/
def Obligations.IllegalCommandWordsRaise : Prop :=
  (∀ s : State, ((0x06 ≤ (opOf s.cmdLatch).toNat ∧ (opOf s.cmdLatch).toNat ≤ 0x0D) ∨ 0x10 ≤ (opOf s.cmdLatch).toNat) →
    coreStep s = .next (s.raise .illegal 0x01#8 (opOf s.cmdLatch))) ∧
  (∀ s : State, ((opOf s.cmdLatch).toNat ≤ 0x05 ∨ (opOf s.cmdLatch).toNat = 0x0E ∨ (opOf s.cmdLatch).toNat = 0x0F) →
    resOf s.cmdLatch ≠ 0#56 → coreStep s = .next (s.raise .illegal 0x02#8 (opOf s.cmdLatch))) ∧
  (∀ w : Word, decodeCommand w = .ok .nop ↔ w = 0#64)

/-! ## The step and the two agents -/

/-- Where the core moves and the latched word is a legal command, the step is exec of that command; only the turn
(schedule, draw count) was taken before it (30_encoding.md R115). With nothing from the host, the core moves exactly while BUSY = 1. -/
def Obligations.StepRunsLatchedCommand : Prop :=
  (∀ (s s' : State) (i : Instr), nextAgent Config.params s = some (.core, s') → decodeCommand s.cmdLatch = .ok i →
    s' = { s with schedule := s'.schedule, draws := s'.draws } ∧ step s = exec i s') ∧
  (∀ s : State, s.regs.status.busy = true → s.inbox = [] → nextAgent Config.params s = some (.core, s))

/-- Where the host moves and its next event is a transaction, the step is exec of that transaction, with the event taken
from the host's program (20_memory.md R92, 30_encoding.md R111). While BUSY = 0 the host moves whenever it has an event. -/
def Obligations.StepRunsHostTransaction : Prop :=
  (∀ (s s' : State) (t : Packed) (rest : List HostEvent) (i : Instr), nextAgent Config.params s = some (.host, s') →
    s.inbox = .transaction t :: rest → decodeTransaction t = some i →
    s' = { s with schedule := s'.schedule, draws := s'.draws } ∧ step s = exec i { s' with inbox := rest }) ∧
  (∀ s : State, s.regs.status.busy = false → s.inbox ≠ [] → nextAgent Config.params s = some (.host, s))

/-- Both orders of the core step and the host's next access are admitted (20_memory.md R92): whichever agent the schedule
names moves first.
That a schedule in the state gives the order is the model's choice (log entry 9). -/
def Obligations.EitherAgentMayMoveFirst : Prop :=
  ∀ (s : State) (a : Agent) (e : HostEvent) (rest : List HostEvent) (later : List Agent),
    s.regs.status.busy = true → s.inbox = e :: rest → s.schedule = a :: later →
    step s = match a with
      | .core => coreStep { s with schedule := later }
      | .host => hostEvent e { s with schedule := later, inbox := rest }

/-- Between commands the block idles with BUSY = 0 and keeps all its state (60_exceptions.md R272, 70_reset_and_hazards.md
R281); a run that has ended (R297) stays at its end, and reset is such a state.
That reset has no host program to run is the model's choice (log entries 10 and 15). -/
def Obligations.IdleBlockKeepsItsState : Prop :=
  (∀ s : State, s.ended → step s = .next s) ∧ State.reset.ended

/-- An accepted command's core step comes after at most as many steps as the host has accesses left, and it ends with
BUSY = 0 (70_reset_and_hazards.md R294; 30_encoding.md R115): for a host program of transactions, whatever the
interleaving.
That the rest of a host program is a finite list is the model's choice (log entry 23). -/
def Obligations.AcceptedCommandIsStepped : Prop :=
  ∀ s : State, s.regs.status.busy = true →
    (∀ e ∈ s.inbox, ∃ t i, e = .transaction t ∧ decodeTransaction t = some i) →
    ∃ k t t' u, k ≤ s.inbox.length ∧ Host.Core.run Sys2Proof.core k s = .next t ∧ t.cmdLatch = s.cmdLatch ∧
      nextAgent Config.params t = some (.core, t') ∧ step t = .next u ∧ u.regs.status.busy = false

/-- A byte bridge is little-endian and word-aligned (20_memory.md R86, R87): the eight bytes written at byte address 8a are
word a, byte j at bits [8j+7:8j]; a whole-word read there is the read of word a; any other access is refused by name. -/
def Obligations.ByteBridgeIsLittleEndian : Prop :=
  (∀ (a : BitVec 23) (bytes : List (BitVec 8)) (s : State), a.toNat % 8 = 0 → bytes.length = 8 →
    ∃ w : Word, (∀ j (h : j < bytes.length), w.extractLsb' (8 * j) 8 = bytes[j]) ∧
      hostEvent (.bridgeWrite a bytes) s = exec (.wr (BitVec.ofNat 20 (a.toNat / 8)) w) s) ∧
  (∀ (a : BitVec 23) (s : State), a.toNat % 8 = 0 →
    hostEvent (.bridgeRead a 8) s = exec (.rd (BitVec.ofNat 20 (a.toNat / 8))) s) ∧
  (∀ (a : BitVec 23) (size : Nat) (s : State), size ≠ 8 ∨ a.toNat % 8 ≠ 0 →
    hostEvent (.bridgeRead a size) s = .refused .partialBridgeAccess) ∧
  (∀ (a : BitVec 23) (bytes : List (BitVec 8)) (s : State), bytes.length ≠ 8 ∨ a.toNat % 8 ≠ 0 →
    hostEvent (.bridgeWrite a bytes) s = .refused .partialBridgeAccess)

/-! ## Reset -/

/-- Power-on reset (70_reset_and_hazards.md R280), from any state, a command in flight included: every register reads its
reset value, CMD_LATCH is 0, no buffer element holds a value (each read of one is a draw) and IRQ is low. -/
def Obligations.PowerOnResetState : Prop :=
  ∀ s : State, ∃ t : State, hostEvent .powerOnReset s = .next t ∧
    t.regs = State.reset.regs ∧ t.cmdLatch = 0#64 ∧ t.regs.irq = false ∧
    (∀ (w : Window) (i : Nat), t.mem.element w i = none) ∧
    (∀ r : Reg,
      r.value Config.params t.regs =
        if r = .id then 0x41534B5F434F5245#64
        else if r = .caps then (BitVec.ofNat 64 Config.params.lMax <<< 32) ||| BitVec.ofNat 64 Config.params.nMax
        else if r = .amplitude then 0x3FF0000000000000#64
        else if r = .snrDb then 0x4014000000000000#64
        else if r = .threshold then 0x3FE0000000000000#64
        else 0#64)

/-- What the commands do on the reset registers (70_reset_and_hazards.md R283): an accepting write to CMD leaves them but for
BUSY, and the core step of each command from there, BUSY = 1, raises the error R283 names or succeeds.
An inference of R283, which the spec marks as derived. That exec gives the same where BUSY = 0, where step runs no command, is
the model's choice (log entry 24). -/
def Obligations.CommandsAfterReset : Prop :=
  (∀ (s : State) (v : Word), s.regs = State.reset.regs →
    exec (.wr 0x002#20 v) s = .next { s with
      cmdLatch := v
      regs := { State.reset.regs with status := { State.reset.regs.status with busy := true } } }) ∧
  (∀ (s : State) (busy : Bool),
    s.regs = { State.reset.regs with status := { State.reset.regs.status with busy := busy } } →
    exec .config s = .next (s.raise .config 0x01#8 0x01#8) ∧
    exec .modulate s = .next (s.raise .precond 0x01#8 0x02#8) ∧
    exec .addNoise s = .next (s.raise .precond 0x01#8 0x03#8) ∧
    exec .demodulate s = .next (s.raise .precond 0x01#8 0x04#8) ∧
    exec .computeBer s = .next (s.raise .precond 0x01#8 0x05#8) ∧
    ∀ i ∈ [Instr.nop, .clearError, .softReset], ∃ t, exec i s = .next t ∧ t.regs.status = Status.reset)

/-! ## The host port -/

/-- Every read completes and has no side effect (20_memory.md R91): the registers, the latch and every buffer element are
unchanged, and the host has one more response. -/
def Obligations.ReadsHaveNoSideEffect : Prop :=
  ∀ (a : Addr) (s : State), ∃ (v : Word) (n : Nat),
    exec (.rd a) s = .next { s with responses := v :: s.responses, draws := n } ∧ s.draws ≤ n

/-- The read of a register while BUSY = 0, by address (10_state.md R32 to R49): the fixed ID and CAPS, CMD as 0, a 32-bit
field zero-extended, a 64-bit register whole. -/
def Obligations.IdleRegisterReads : Prop :=
  ∀ (s : State) (a : Addr) (v : Word), s.regs.status.busy = false →
    (a, v) ∈ [(0x000#20, 0x41534B5F434F5245#64),
      (0x001#20, (BitVec.ofNat 64 Config.params.lMax <<< 32) ||| BitVec.ofNat 64 Config.params.nMax),
      (0x002#20, 0#64), (0x003#20, s.regs.status.toWord), (0x004#20, s.regs.errCode.toWord),
      (0x005#20, s.regs.intStatus.toWord), (0x006#20, s.regs.intEnable.toWord),
      (0x010#20, s.regs.bitRate.zeroExtend 64), (0x011#20, s.regs.carrierFreq.zeroExtend 64),
      (0x012#20, s.regs.sampleRate.zeroExtend 64), (0x013#20, s.regs.nbits.zeroExtend 64),
      (0x014#20, s.regs.amplitude), (0x015#20, s.regs.snrDb), (0x016#20, s.regs.threshold),
      (0x017#20, s.regs.noiseSeed), (0x018#20, s.regs.noiseCtr), (0x020#20, s.regs.spb.zeroExtend 64),
      (0x021#20, s.regs.tStep), (0x022#20, s.regs.wn), (0x023#20, s.regs.txN.zeroExtend 64),
      (0x024#20, s.regs.nsamples.zeroExtend 64), (0x025#20, s.regs.rxN.zeroExtend 64),
      (0x026#20, s.regs.rxbN.zeroExtend 64), (0x027#20, s.regs.sigPower), (0x028#20, s.regs.noisePower),
      (0x029#20, s.regs.berErrors.zeroExtend 64), (0x02A#20, s.regs.berBits.zeroExtend 64), (0x02B#20, s.regs.ber),
      (0x030#20, s.regs.lpfB[0]), (0x031#20, s.regs.lpfB[1]), (0x032#20, s.regs.lpfB[2]), (0x033#20, s.regs.lpfB[3]),
      (0x034#20, s.regs.lpfB[4]), (0x035#20, s.regs.lpfB[5]), (0x038#20, s.regs.lpfA[0]), (0x039#20, s.regs.lpfA[1]),
      (0x03A#20, s.regs.lpfA[2]), (0x03B#20, s.regs.lpfA[3]), (0x03C#20, s.regs.lpfA[4]), (0x03D#20, s.regs.lpfA[5])] →
    exec (.rd a) s = .next (s.respond v)

/-- STATUS, ERR_CODE, INT_STATUS and INT_ENABLE as words, bit for bit (10_state.md R36 to R39), and the code of every error
(60_exceptions.md R251). -/
def Obligations.StatusAndErrorWords : Prop :=
  (∀ (f : Status) (n : Nat), f.toWord.getLsbD n =
    match n with
    | 0 => f.busy
    | 1 => f.err
    | 2 => f.errMulti
    | 3 => f.cfgValid
    | 4 => f.txValid
    | 5 => f.rxValid
    | 6 => f.rxbValid
    | 7 => f.berValid
    | _ => false) ∧
  (∀ c : ErrCode, c.toWord.extractLsb' 0 8 = c.code.toByte ∧ c.toWord.extractLsb' 8 8 = c.info ∧
    c.toWord.extractLsb' 16 8 = c.op ∧ c.toWord.extractLsb' 24 40 = 0#40) ∧
  (∀ (i : IntStatus) (n : Nat), i.toWord.getLsbD n =
    match n with
    | 0 => i.done
    | 1 => i.erri
    | _ => false) ∧
  (∀ (e : IntEnable) (n : Nat), e.toWord.getLsbD n =
    match n with
    | 0 => e.doneIe
    | 1 => e.errIe
    | _ => false) ∧
  (∀ k : ErrorKind, k.toByte =
    match k with
    | .none => 0x00#8
    | .illegal => 0x01#8
    | .config => 0x02#8
    | .precond => 0x03#8
    | .capacity => 0x04#8
    | .operand => 0x05#8
    | .empty => 0x06#8
    | .busy => 0x07#8
    | .halted => 0x08#8)

/-- The read of a buffer element while BUSY = 0 (10_state.md R61 to R63; 20_memory.md R84): a written element gives its
value, a bit zero-extended; an unwritten one gives a fresh draw, a bit for a bit element.
The draws are free values (log entry 4): it holds for every one. -/
def Obligations.IdleBufferReads : Prop :=
  ∀ (s : State) (a : Addr) (w : Window) (i : Nat), s.regs.status.busy = false → i < w.capacity Config.params →
    a.toNat = w.base + i →
    (∀ v, s.mem.element w i = some v → exec (.rd a) s = .next (s.respond v)) ∧
    (s.mem.element w i = none →
      exec (.rd a) s = .next { s.respond (if w = .bitsIn ∨ w = .bitsOut then bitAt (Config.freeBit s.draws) 0
        else Config.freeWord s.draws) with draws := s.draws + 1 })

/-- Reads while BUSY = 1 (20_memory.md R88): ID, CAPS, STATUS, ERR_CODE, INT_STATUS, INT_ENABLE and reserved addresses
give the current value; every other address gives a draw, a bit for a bit element.
The draws are free values (log entry 4): it holds for every one. That CMD is among the addresses that give a draw is deduced
(log entry 14). -/
def Obligations.BusyReads : Prop :=
  ∀ (s : State) (a : Addr), s.regs.status.busy = true →
    (∀ r ∈ [Reg.id, .caps, .status, .errCode, .intStatus, .intEnable], a.toNat = r.addr →
      exec (.rd a) s = .next (s.respond (r.value Config.params s.regs))) ∧
    (target Config.params a = .reserved → exec (.rd a) s = .next (s.respond 0#64)) ∧
    (∀ r : Reg, r ∉ [Reg.id, .caps, .status, .errCode, .intStatus, .intEnable] → a.toNat = r.addr →
      exec (.rd a) s = .next { s.respond (Config.freeWord s.draws) with draws := s.draws + 1 }) ∧
    (∀ (w : Window) (i : Nat), i < w.capacity Config.params → a.toNat = w.base + i →
      exec (.rd a) s = .next { s.respond (if w = .bitsIn ∨ w = .bitsOut then bitAt (Config.freeBit s.draws) 0
        else Config.freeWord s.draws) with draws := s.draws + 1 })

/-- Reserved addresses, busy or idle (20_memory.md R85): a read gives 0 and a write is ignored, for the undefined
addresses of 0x000–0x0FF, the reserved ranges, and the offsets of a window at or past its capacity. -/
def Obligations.ReservedAddressesAreInert : Prop :=
  ∀ (s : State) (a : Addr) (v : Word),
    ((a.toNat < 0x100 ∧ ∀ r : Reg, r.addr ≠ a.toNat) ∨ (0x100 ≤ a.toNat ∧ a.toNat < 0x10000) ∨
      (0x30000 ≤ a.toNat ∧ a.toNat < 0x40000) ∨ 0x80000 ≤ a.toNat ∨
      ∃ w : Window, w.base + w.capacity Config.params ≤ a.toNat ∧ a.toNat < w.base + 0x10000) →
    exec (.rd a) s = .next (s.respond 0#64) ∧ exec (.wr a v) s = .next s

/-- Writes to read-only registers and windows are ignored and record no error, busy or idle; a 32-bit field reads
zero-extended and takes data[31:0] (10_state.md R51).
For a window while BUSY = 1, R51 is followed over the wording of R89 (log entry 13). -/
def Obligations.ReadOnlyTargetsIgnoreWrites : Prop :=
  (∀ (s : State) (a : Addr) (v : Word),
    (∃ r : Reg, r.access = .readOnly ∧ a.toNat = r.addr) ∨
      (∃ (w : Window) (i : Nat), w ≠ .bitsIn ∧ i < w.capacity Config.params ∧ a.toNat = w.base + i) →
    exec (.wr a v) s = .next s) ∧
  (∀ r : Reg, r.access = .readOnly ↔ r ∈ [Reg.id, .caps, .status, .errCode, .noiseCtr, .spb, .tStep, .wn, .txN, .nsamples,
    .rxN, .rxbN, .sigPower, .noisePower, .berErrors, .berBits, .ber] ∨ (∃ i, r = .lpfB i) ∨ (∃ i, r = .lpfA i)) ∧
  (∀ (s : State) (a : Addr) (v : Word), s.regs.status.busy = false → a ∈ [0x010#20, 0x011#20, 0x012#20, 0x013#20] →
    ∃ t : State, exec (.wr a v) s = .next t ∧ exec (.rd a) t = .next (t.respond ((v.truncate 32).zeroExtend 64))) ∧
  (∀ (g : Regs) (r : Reg), r ∈ [Reg.bitRate, .carrierFreq, .sampleRate, .nbits, .spb, .txN, .nsamples, .rxN, .rxbN,
    .berErrors, .berBits] → (r.value Config.params g).extractLsb' 32 32 = 0#32)

/-- A write to BIT_RATE, CARRIER_FREQ or SAMPLE_RATE while BUSY = 0 stores data[31:0] and clears all five valid flags, and
changes nothing else: SPB, T_STEP, WN and LPF_* keep their old values. Bits 63:32 of the three read 0 (10_state.md R40). -/
def Obligations.ConfigWriteInvalidates : Prop :=
  ∀ (s : State) (v : Word), s.regs.status.busy = false →
    let f : Status := { s.regs.status with
      cfgValid := false, txValid := false, rxValid := false, rxbValid := false, berValid := false }
    exec (.wr 0x010#20 v) s = .next { s with regs := { s.regs with bitRate := v.truncate 32, status := f } } ∧
    exec (.wr 0x011#20 v) s = .next { s with regs := { s.regs with carrierFreq := v.truncate 32, status := f } } ∧
    exec (.wr 0x012#20 v) s = .next { s with regs := { s.regs with sampleRate := v.truncate 32, status := f } } ∧
    ∀ r ∈ [Reg.bitRate, .carrierFreq, .sampleRate], (r.value Config.params s.regs).extractLsb' 32 32 = 0#32

/-- A write to an operand register while BUSY = 0 stores its value and changes nothing else (10_state.md R42, R43); a
write to NOISE_SEED also zeroes NOISE_CTR (R44). -/
def Obligations.OperandWritesStore : Prop :=
  ∀ (s : State) (v : Word), s.regs.status.busy = false →
    exec (.wr 0x013#20 v) s = .next { s with regs := { s.regs with nbits := v.truncate 32 } } ∧
    exec (.wr 0x014#20 v) s = .next { s with regs := { s.regs with amplitude := v } } ∧
    exec (.wr 0x015#20 v) s = .next { s with regs := { s.regs with snrDb := v } } ∧
    exec (.wr 0x016#20 v) s = .next { s with regs := { s.regs with threshold := v } } ∧
    exec (.wr 0x017#20 v) s = .next { s with regs := { s.regs with noiseSeed := v, noiseCtr := 0#64 } }

/-- The interrupt registers, busy or idle (10_state.md R38, R39; 20_memory.md R89): a write to INT_STATUS clears the bits
written 1, a write to INT_ENABLE stores v[1:0], and nothing else changes. -/
def Obligations.InterruptRegisterWrites : Prop :=
  ∀ (s : State) (v : Word),
    exec (.wr 0x005#20 v) s = .next { s with regs := { s.regs with
      intStatus := ⟨s.regs.intStatus.done && !v.getLsbD 0, s.regs.intStatus.erri && !v.getLsbD 1⟩ } } ∧
    exec (.wr 0x006#20 v) s = .next { s with regs := { s.regs with intEnable := ⟨v.getLsbD 0, v.getLsbD 1⟩ } }

/-- A write to BITS_IN[i] while BUSY = 0 stores v[0], which a host read then gives zero-extended, and leaves every other
element of every buffer and every register as it was (10_state.md R61, R63). -/
def Obligations.BitsInWriteStoresBit : Prop :=
  ∀ (s : State) (a : Addr) (v : Word) (i : Nat), s.regs.status.busy = false → i < Config.params.nMax →
    a.toNat = 0x10000 + i →
    ∃ t : State, exec (.wr a v) s = .next t ∧
      t = { s with mem := { s.mem with bitsIn := t.mem.bitsIn } } ∧
      t.mem.bitsIn.read i = some (v.getLsbD 0) ∧ (∀ j, j ≠ i → t.mem.bitsIn.read j = s.mem.bitsIn.read j) ∧
      exec (.rd a) t = .next (t.respond ((v.truncate 1).zeroExtend 64))

/-- Every buffer address reaches its element, and every register address its register (20_memory.md R83, R84). -/
def Obligations.AddressMapIsFaithful : Prop :=
  (∀ (p : Params) (a : Addr) (w : Window) (i : Nat), a.toNat = w.base + i → i < 0x10000 →
    target p a = if i < w.capacity p then .elem w i else .reserved) ∧
  (∀ (p : Params) (a : Addr) (r : Reg), a.toNat = r.addr → target p a = .reg r)

/-- Every write completes, and its frame (10_state.md R51, R60, R64; 20_memory.md R89, R91), whatever the address. The one
buffer element it can change is the BITS_IN element that the address reaches while BUSY = 0; a write to a buffer or a
reserved address while BUSY = 0 changes no register; a write while BUSY = 1 changes only the error record, INT_STATUS and
INT_ENABLE; no write changes the derived, length and result registers or the host's side; and only a write to CMD while
BUSY = 0 changes the latch or BUSY. -/
def Obligations.WritesCompleteWithFrame : Prop :=
  ∀ (a : Addr) (v : Word) (s : State), ∃ t : State, exec (.wr a v) s = .next t ∧
    t.mem = { s.mem with bitsIn := t.mem.bitsIn } ∧
    (∀ j, ¬(s.regs.status.busy = false ∧ target Config.params a = .elem .bitsIn j) →
      t.mem.bitsIn.read j = s.mem.bitsIn.read j) ∧
    ((s.regs.status.busy = true ∨ ∀ i, target Config.params a ≠ .elem .bitsIn i) → t.mem = s.mem) ∧
    t.draws = s.draws ∧ t.inbox = s.inbox ∧ t.responses = s.responses ∧ t.schedule = s.schedule ∧
    ((a ≠ 0x002#20 ∨ s.regs.status.busy = true) →
      t.cmdLatch = s.cmdLatch ∧ t.regs.status.busy = s.regs.status.busy) ∧
    ((s.regs.status.busy = false ∧ ∀ r, target Config.params a ≠ .reg r) → t.regs = s.regs) ∧
    (s.regs.status.busy = true → t.regs = { s.regs with
      status := { s.regs.status with err := t.regs.status.err, errMulti := t.regs.status.errMulti }
      errCode := t.regs.errCode, intStatus := t.regs.intStatus, intEnable := t.regs.intEnable }) ∧
    t.regs = { s.regs with
      status := t.regs.status, errCode := t.regs.errCode, intStatus := t.regs.intStatus, intEnable := t.regs.intEnable,
      bitRate := t.regs.bitRate, carrierFreq := t.regs.carrierFreq, sampleRate := t.regs.sampleRate,
      nbits := t.regs.nbits, amplitude := t.regs.amplitude, snrDb := t.regs.snrDb, threshold := t.regs.threshold,
      noiseSeed := t.regs.noiseSeed, noiseCtr := t.regs.noiseCtr }

/-- Acceptance (30_encoding.md R114): a write to CMD while BUSY = 0 latches the word and sets BUSY, its OP and RES
unchecked; while ERR = 1 only NOP, CLEAR_ERROR and SOFT_RESET pass, and any other is recorded as E_HALTED and not accepted. -/
def Obligations.CommandAcceptance : Prop :=
  ∀ (s : State) (v : Word), s.regs.status.busy = false →
    if s.regs.status.err = true ∧ opOf v ≠ 0x00#8 ∧ opOf v ≠ 0x0E#8 ∧ opOf v ≠ 0x0F#8 then
      exec (.wr 0x002#20 v) s = .next (s.record .halted 0x00#8 (opOf v))
    else
      exec (.wr 0x002#20 v) s =
        .next { s with cmdLatch := v, regs := { s.regs with status := { s.regs.status with busy := true } } }

/-- Writes while BUSY = 1 (20_memory.md R89): INT_STATUS and INT_ENABLE are written, reserved addresses and read-only
registers ignore the write, and every other write, to CMD included, is discarded with E_BUSY. -/
def Obligations.BusyWrites : Prop :=
  ∀ (s : State) (a : Addr) (v : Word), s.regs.status.busy = true →
    (a = 0x005#20 → exec (.wr a v) s = .next { s with regs := { s.regs with
      intStatus := ⟨s.regs.intStatus.done && !v.getLsbD 0, s.regs.intStatus.erri && !v.getLsbD 1⟩ } }) ∧
    (a = 0x006#20 → exec (.wr a v) s =
      .next { s with regs := { s.regs with intEnable := ⟨v.getLsbD 0, v.getLsbD 1⟩ } }) ∧
    ((target Config.params a = .reserved ∨ ∃ r : Reg, r.access = .readOnly ∧ target Config.params a = .reg r) →
      exec (.wr a v) s = .next s) ∧
    ((∃ r : Reg, r ∈ [Reg.cmd, .bitRate, .carrierFreq, .sampleRate, .nbits, .amplitude, .snrDb, .threshold, .noiseSeed] ∧
      target Config.params a = .reg r) ∨ (∃ i, target Config.params a = .elem .bitsIn i) →
      exec (.wr a v) s = .next (s.record .busy 0x00#8 0xFF#8))

/-- The command in flight is protected (20_memory.md R89, R95): while BUSY = 1 a host transaction, whatever it is, leaves the
latch, BUSY, the valid flags, every buffer and every register but ERR_CODE, INT_STATUS, INT_ENABLE, ERR and ERR_MULTI as
they were.
The rest of R95 that this draws on is an inference the spec marks as derived. -/
def Obligations.BusyProtectsCommand : Prop :=
  ∀ (s t : State) (p : Packed), s.regs.status.busy = true → hostEvent (.transaction p) s = .next t →
    t.cmdLatch = s.cmdLatch ∧ t.mem = s.mem ∧
    t.regs = { s.regs with
      status := { s.regs.status with err := t.regs.status.err, errMulti := t.regs.status.errMulti }
      errCode := t.regs.errCode, intStatus := t.regs.intStatus, intEnable := t.regs.intEnable }

/-! ## Errors and interrupts -/

/-- The recording procedure (60_exceptions.md R252): the first error is kept, a later one sets ERR_MULTI, and ERRI is set;
a raise is that record with BUSY cleared, DONE not set, and no other change. -/
def Obligations.RecordKeepsFirstError : Prop :=
  ∀ (s : State) (code : ErrorKind) (info op : BitVec 8),
    (s.regs.status.err = false →
      s.record code info op = { s with regs := { s.regs with
        status := { s.regs.status with err := true }
        errCode := ⟨code, info, op⟩
        intStatus := { s.regs.intStatus with erri := true } } }) ∧
    (s.regs.status.err = true →
      s.record code info op = { s with regs := { s.regs with
        status := { s.regs.status with errMulti := true }
        intStatus := { s.regs.intStatus with erri := true } } }) ∧
    s.raise code info op =
      { s.record code info op with regs := { (s.record code info op).regs with
        status := { (s.record code info op).regs.status with busy := false } } }

/-- Every core step ends, with every effect of its command or one raised error and no other effect (30_encoding.md R115,
60_exceptions.md R254): a command that raises leaves the state as it was but for the record and BUSY, one that succeeds sets
DONE (but for SOFT_RESET) and records nothing, and both clear BUSY. -/
def Obligations.CoreStepsAreAllOrNothing : Prop :=
  ∀ (i : Instr) (s : State), i.isCommand = true → ∃ t : State, exec i s = .next t ∧ t.regs.status.busy = false ∧
    ((∃ code info op, t = s.raise code info op) ∨
      ((t.regs.intStatus.done = true ∨ i = .softReset) ∧
        (t.regs.status.err = false ∨ t.regs.status.err = s.regs.status.err ∧ t.regs.errCode = s.regs.errCode ∧
          t.regs.status.errMulti = s.regs.status.errMulti ∧ t.regs.intStatus.erri = s.regs.intStatus.erri)))

/-- The interrupt line (60_exceptions.md R256): it is high exactly while a pending bit has its enable set; a completed NOP
raises it where DONE is enabled, a raised error where ERRI is enabled, and CLEAR_ERROR leaves ERRI pending.
The clause of CLEAR_ERROR is an inference of R243, which the spec marks as derived. -/
def Obligations.InterruptLine : Prop :=
  (∀ r : Regs, r.irq = true ↔
    (r.intStatus.done = true ∧ r.intEnable.doneIe = true) ∨ (r.intStatus.erri = true ∧ r.intEnable.errIe = true)) ∧
  (∀ s : State, s.regs.intEnable.doneIe = true → ∃ t, exec .nop s = .next t ∧ t.regs.irq = true) ∧
  (∀ (s : State) (code : ErrorKind) (info op : BitVec 8), s.regs.intEnable.errIe = true →
    (s.raise code info op).regs.irq = true) ∧
  (∀ s : State, s.regs.intStatus.erri = true → s.regs.intEnable.errIe = true →
    ∃ t, exec .clearError s = .next t ∧ t.regs.irq = true)

/-! ## The system commands -/

/-- The system commands, each of which fails in no state (45_system.md R240, R242, R244; 70_reset_and_hazards.md R282): NOP has
no effect but DONE and the end of BUSY; CLEAR_ERROR clears ERR, ERR_MULTI and ERR_CODE, keeps ERRI and sets DONE; SOFT_RESET gives
every register its reset value, BUSY and DONE among them, and keeps every buffer with its marks.
That SOFT_RESET keeps CMD_LATCH is deduced (log entry 26). -/
def Obligations.SystemCommandEffects : Prop :=
  ∀ s : State,
    exec .nop s = .next { s with regs := { s.regs with
      intStatus := { s.regs.intStatus with done := true }
      status := { s.regs.status with busy := false } } } ∧
    exec .clearError s = .next { s with regs := { s.regs with
      status := { s.regs.status with busy := false, err := false, errMulti := false }
      errCode := ⟨.none, 0#8, 0#8⟩
      intStatus := { s.regs.intStatus with done := true } } } ∧
    exec .softReset s = .next { s with regs := State.reset.regs }

/-! ## CONFIG -/

/-- The checks of CONFIG and their order (40_config.md R142, 60_exceptions.md R253). -/
def Obligations.ConfigChecks : Prop :=
  ∀ s : State,
    ((s.regs.bitRate = 0 ∨ s.regs.carrierFreq = 0 ∨ s.regs.sampleRate = 0) →
      exec .config s = .next (s.raise .config 0x01#8 0x01#8)) ∧
    (s.regs.bitRate ≠ 0 → s.regs.carrierFreq ≠ 0 → s.regs.sampleRate ≠ 0 →
      s.regs.sampleRate.toNat < s.regs.bitRate.toNat → exec .config s = .next (s.raise .config 0x02#8 0x01#8)) ∧
    (s.regs.bitRate ≠ 0 → s.regs.carrierFreq ≠ 0 → s.regs.sampleRate ≠ 0 →
      s.regs.bitRate.toNat ≤ s.regs.sampleRate.toNat → s.regs.sampleRate.toNat ≤ 2 * s.regs.carrierFreq.toNat →
      exec .config s = .next (s.raise .config 0x03#8 0x01#8))

/-- A CONFIG whose checks pass (40_config.md R141, R143, R144, R147): SPB, T_STEP, WN and the filter words derived
exactly, CFG_VALID set, the later flags cleared, DONE set, BUSY cleared, and nothing else changed. -/
def Obligations.ConfigDerivesRegisters : Prop :=
  ∀ s : State, s.regs.bitRate ≠ 0 → s.regs.carrierFreq ≠ 0 →
    s.regs.bitRate.toNat ≤ s.regs.sampleRate.toNat → 2 * s.regs.carrierFreq.toNat < s.regs.sampleRate.toNat →
    ∃ t : State, exec .config s = .next t ∧
      t.regs.spb.toNat = s.regs.sampleRate.toNat / s.regs.bitRate.toNat ∧
      t.regs.tStep = r64 (1 / ((s.regs.bitRate.toNat * t.regs.spb.toNat : ℕ) : ℚ)) ∧
      t.regs.wn = r64 (2 * (s.regs.carrierFreq.toNat : ℚ) / (s.regs.sampleRate.toNat : ℚ)) ∧
      (∀ i : Fin 6,
        t.regs.lpfB.get i =
          r64 ((Config.num.lpfCoeffs s.regs.carrierFreq.toNat s.regs.sampleRate.toNat).bAt i) ∧
        t.regs.lpfA.get i =
          r64 ((Config.num.lpfCoeffs s.regs.carrierFreq.toNat s.regs.sampleRate.toNat).aAt i)) ∧
      t = { s with regs := { s.regs with
        spb := t.regs.spb, tStep := t.regs.tStep, wn := t.regs.wn, lpfB := t.regs.lpfB, lpfA := t.regs.lpfA
        status := { s.regs.status with
          busy := false, cfgValid := true, txValid := false, rxValid := false, rxbValid := false, berValid := false }
        intStatus := { s.regs.intStatus with done := true } } }

/-- Bounds of the derived integers (40_config.md R143): spb ≥ 1, and M = br × spb fits in 32 bits, equal to fs exactly when
br divides fs.
An inference of R143, which the spec marks as derived. -/
def Obligations.TimeBaseFits : Prop :=
  ∀ br fs : Nat, 1 ≤ br → br ≤ fs → fs < 2 ^ 32 →
    1 ≤ samplesPerBit br fs ∧ timeBase br (samplesPerBit br fs) ≤ fs ∧ timeBase br (samplesPerBit br fs) < 2 ^ 32 ∧
    (timeBase br (samplesPerBit br fs) = fs ↔ br ∣ fs)

/-! ## MODULATE -/

/-- The checks of MODULATE and their order (41_ask_modulator.md R162, 60_exceptions.md R253). -/
def Obligations.ModulateChecks : Prop :=
  ∀ s : State,
    (s.regs.status.cfgValid = false → exec .modulate s = .next (s.raise .precond 0x01#8 0x02#8)) ∧
    (s.regs.status.cfgValid = true → isFinite s.regs.amplitude = false →
      exec .modulate s = .next (s.raise .operand 0x01#8 0x02#8)) ∧
    (s.regs.status.cfgValid = true → isFinite s.regs.amplitude = true → Config.params.nMax < s.regs.nbits.toNat →
      exec .modulate s = .next (s.raise .capacity 0x01#8 0x02#8)) ∧
    (s.regs.status.cfgValid = true → isFinite s.regs.amplitude = true → s.regs.nbits.toNat ≤ Config.params.nMax →
      Config.params.lMax < s.regs.nbits.toNat * s.regs.spb.toNat →
      exec .modulate s = .next (s.raise .capacity 0x02#8 0x02#8))

/-- A MODULATE whose checks pass (41_ask_modulator.md R160, R161, R163, R164, R166): for every k < L, TIME[k] is R64(k/M)
and TX[k] is the carrier at phase (fc × k) mod M where its bit is 1 and +0.0 where it is 0; a bit never written is a draw of
its own, the same for its whole window (a free value, log entry 4); the lengths and flags are set; every other element and
register is unchanged. -/
def Obligations.ModulateWritesWaveform : Prop :=
  ∀ s : State, s.regs.status.cfgValid = true → isFinite s.regs.amplitude = true →
    s.regs.nbits.toNat ≤ Config.params.nMax → s.regs.nbits.toNat * s.regs.spb.toNat ≤ Config.params.lMax →
    ∃ t : State, exec .modulate s = .next t ∧
      (∀ k, k < s.regs.nbits.toNat * s.regs.spb.toNat →
        t.mem.time.read k = some (r64 ((k : ℚ) / ((s.regs.bitRate.toNat * s.regs.spb.toNat : ℕ) : ℚ))) ∧
        t.mem.tx.read k = some (if s.mem.bitsIn.seen Config.freeBit s.draws (k / s.regs.spb.toNat)
          then Config.num.carrier s.regs.amplitude
            (s.regs.carrierFreq.toNat * k % (s.regs.bitRate.toNat * s.regs.spb.toNat))
            (s.regs.bitRate.toNat * s.regs.spb.toNat)
          else 0x0000000000000000#64)) ∧
      (∀ k, s.regs.nbits.toNat * s.regs.spb.toNat ≤ k →
        t.mem.time.read k = s.mem.time.read k ∧ t.mem.tx.read k = s.mem.tx.read k) ∧
      t.regs.nsamples.toNat = s.regs.nbits.toNat * s.regs.spb.toNat ∧
      t = { s with
        mem := { s.mem with time := t.mem.time, tx := t.mem.tx }
        regs := { s.regs with
          txN := s.regs.nbits, nsamples := t.regs.nsamples
          status := { s.regs.status with
            busy := false, txValid := true, rxValid := false, rxbValid := false, berValid := false }
          intStatus := { s.regs.intStatus with done := true } }
        draws := s.draws + s.mem.bitsIn.unwritten s.regs.nbits.toNat }

/-- MODULATE is determined by N, A, the bits, br, fc and spb (41_ask_modulator.md R165): two states that agree on these, with
the bits written, and in which MODULATE's checks pass, give the same TIME and TX words below L, whatever else they hold.
An inference of R165, which the spec marks as derived. -/
def Obligations.ModulateIsDeterministic : Prop :=
  ∀ s s' : State, s.regs.nbits = s'.regs.nbits → s.regs.amplitude = s'.regs.amplitude →
    s.regs.bitRate = s'.regs.bitRate → s.regs.carrierFreq = s'.regs.carrierFreq → s.regs.spb = s'.regs.spb →
    (∀ i, i < s.regs.nbits.toNat → (s.mem.bitsIn.read i).isSome ∧ s.mem.bitsIn.read i = s'.mem.bitsIn.read i) →
    s.regs.status.cfgValid = true → s'.regs.status.cfgValid = true → isFinite s.regs.amplitude = true →
    s.regs.nbits.toNat ≤ Config.params.nMax → s.regs.nbits.toNat * s.regs.spb.toNat ≤ Config.params.lMax →
    ∃ t t' : State, exec .modulate s = .next t ∧ exec .modulate s' = .next t' ∧
      ∀ k, k < s.regs.nbits.toNat * s.regs.spb.toNat →
        t.mem.time.read k = t'.mem.time.read k ∧ t.mem.tx.read k = t'.mem.tx.read k

/-- Equal windows (41_ask_modulator.md R167(b)): two bits written 1 with `fc × (i − j) ≡ 0 (mod br)` have word-for-word equal
windows, under every NUM, N_MAX and L_MAX, those of this machine among them.
An inference of R167, which the spec marks as derived. -/
def Obligations.EqualPhaseWindowsAreEqual : Prop :=
  (∀ (p : Params) (s : State) (i j r : Nat), s.regs.status.cfgValid = true → isFinite s.regs.amplitude = true →
    s.regs.nbits.toNat ≤ p.nMax → s.regs.nbits.toNat * s.regs.spb.toNat ≤ p.lMax →
    i < s.regs.nbits.toNat → j ≤ i → r < s.regs.spb.toNat →
    s.mem.bitsIn.read i = some true → s.mem.bitsIn.read j = some true →
    s.regs.carrierFreq.toNat * (i - j) % s.regs.bitRate.toNat = 0 →
    ∃ w, (modulate p s).mem.tx.read (i * s.regs.spb.toNat + r) = some w ∧
      (modulate p s).mem.tx.read (j * s.regs.spb.toNat + r) = some w) ∧
  ∀ s : State, exec .modulate s = .next (modulate Config.params s)

/-! ## ADD_NOISE -/

/-- The checks of ADD_NOISE and their order (42_awgn_channel.md R181, R184; 60_exceptions.md R253): E_OPERAND(2) only
where some written sample of the waveform is not zero. -/
def Obligations.AddNoiseChecks : Prop :=
  ∀ s : State,
    (s.regs.status.cfgValid = false → exec .addNoise s = .next (s.raise .precond 0x01#8 0x03#8)) ∧
    (s.regs.status.cfgValid = true → s.regs.status.txValid = false →
      exec .addNoise s = .next (s.raise .precond 0x02#8 0x03#8)) ∧
    (s.regs.status.cfgValid = true → s.regs.status.txValid = true →
      (isNaN s.regs.snrDb = true ∨ s.regs.snrDb = 0xFFF0000000000000#64) →
      (∃ k v, k < s.regs.nsamples.toNat ∧ s.mem.tx.read k = some v ∧ dec v ≠ .fin 0) →
      exec .addNoise s = .next (s.raise .operand 0x02#8 0x03#8))

/-- The zero-power branch (42_awgn_channel.md R182): with every TX[k], k < L, decoding to 0 (L = 0 included), every RX[k] is +0.0,
both powers are +0.0, whatever SNR_DB holds, NaN included; L draws of the stream are counted, and nothing else changes. -/
def Obligations.AddNoiseZeroPower : Prop :=
  ∀ s : State, s.regs.status.cfgValid = true → s.regs.status.txValid = true →
    (∀ k, k < s.regs.nsamples.toNat → ∃ v, s.mem.tx.read k = some v ∧ dec v = .fin 0) →
    ∃ t : State, exec .addNoise s = .next t ∧
      (∀ k, k < s.regs.nsamples.toNat → t.mem.rx.read k = some 0x0000000000000000#64) ∧
      (∀ k, s.regs.nsamples.toNat ≤ k → t.mem.rx.read k = s.mem.rx.read k) ∧
      t = { s with
        mem := { s.mem with rx := t.mem.rx }
        regs := { s.regs with
          noiseCtr := s.regs.noiseCtr + s.regs.nsamples.zeroExtend 64
          sigPower := 0#64, noisePower := 0#64, rxN := s.regs.txN
          status := { s.regs.status with busy := false, rxValid := true, rxbValid := false, berValid := false }
          intStatus := { s.regs.intStatus with done := true } } }

/-- An ADD_NOISE whose checks pass, in every branch (42_awgn_channel.md R180, R183, R185 to R189), for the words `w k` read
from TX (a word never written is a draw of its own, a free value: log entry 4): the zero-power branch;
SNR_DB = +∞, where RX[k] is R64(dec(TX[k])) and P_n is 0; and a finite SNR_DB, where P_n is NUM's and RX[k] is NUM's noisy sample with the unit draw GAUSS(seed, (ctr + k) mod 2^64).
P_s is the exact mean square where every word is finite (where one is not the spec states none: log entry 7). That
R64(dec(TX[k])) of a non-finite word is that word is deduced (log entry 8). RX_N,
NOISE_CTR and the flags are set and every other element and register is unchanged. -/
def Obligations.AddNoiseWritesNoisySignal : Prop :=
  ∀ s : State, s.regs.status.cfgValid = true → s.regs.status.txValid = true →
    isNaN s.regs.snrDb = false → s.regs.snrDb ≠ 0xFFF0000000000000#64 →
    let w := s.mem.tx.seen Config.freeWord s.draws
    ∃ (t : State) (ps : ℚ), exec .addNoise s = .next t ∧
      ((∀ k, k < s.regs.nsamples.toNat → isFinite (w k) = true) →
        ps = (∑ k ∈ Finset.range s.regs.nsamples.toNat, decQ (w k) ^ 2) / (s.regs.nsamples.toNat : ℚ)) ∧
      ((∀ k, k < s.regs.nsamples.toNat → dec (w k) = .fin 0) →
        t.regs.sigPower = 0#64 ∧ t.regs.noisePower = 0#64 ∧
        ∀ k, k < s.regs.nsamples.toNat → t.mem.rx.read k = some 0#64) ∧
      ((∃ k, k < s.regs.nsamples.toNat ∧ dec (w k) ≠ .fin 0) → s.regs.snrDb = 0x7FF0000000000000#64 →
        t.regs.sigPower = r64 ps ∧ t.regs.noisePower = 0#64 ∧
        ∀ k, k < s.regs.nsamples.toNat → t.mem.rx.read k = some (requantise (w k))) ∧
      ((∃ k, k < s.regs.nsamples.toNat ∧ dec (w k) ≠ .fin 0) → s.regs.snrDb ≠ 0x7FF0000000000000#64 →
        t.regs.sigPower = r64 ps ∧ t.regs.noisePower = r64 ((Config.num.noisePower ps s.regs.snrDb).val : ℝ) ∧
        ((Config.num.noisePower ps s.regs.snrDb).val = 0 →
          ∀ k, k < s.regs.nsamples.toNat → t.mem.rx.read k = some (requantise (w k))) ∧
        ((Config.num.noisePower ps s.regs.snrDb).val ≠ 0 →
          ∀ k, k < s.regs.nsamples.toNat → t.mem.rx.read k = some (Config.num.noisy (w k)
            (Config.num.noisePower ps s.regs.snrDb).val
            (Config.gauss s.regs.noiseSeed ((s.regs.noiseCtr.toNat + k) % 2 ^ 64))))) ∧
      (∀ k, s.regs.nsamples.toNat ≤ k → t.mem.rx.read k = s.mem.rx.read k) ∧
      t = { s with
        mem := { s.mem with rx := t.mem.rx }
        regs := { s.regs with
          noiseCtr := s.regs.noiseCtr + s.regs.nsamples.zeroExtend 64
          sigPower := t.regs.sigPower, noisePower := t.regs.noisePower, rxN := s.regs.txN
          status := { s.regs.status with busy := false, rxValid := true, rxbValid := false, berValid := false }
          intStatus := { s.regs.intStatus with done := true } }
        draws := s.draws + s.mem.tx.unwritten s.regs.nsamples.toNat }

/-- Skipped noise is exact (42_awgn_channel.md R185, R190(b)): R64(dec(w)) of a finite word decodes to the same value, and it
is w itself unless w is −0.0, which becomes +0.0.
R190(b) is an inference the spec marks as derived. -/
def Obligations.SkippedNoiseIsExact : Prop :=
  ∀ w : Word, isFinite w = true →
    dec (requantise w) = dec w ∧
    requantise w = if w = 0x8000000000000000#64 then 0x0000000000000000#64 else w

/-- The position in the noise stream (42_awgn_channel.md R186, R188; 10_state.md R44; 45_system.md R244;
70_reset_and_hazards.md R280): a step leaves NOISE_CTR as it is, or advances it by L in the core step of an ADD_NOISE that
succeeds, or zeroes it; and it zeroes it only by a write to NOISE_SEED while BUSY = 0, on the port or on a bridge, by the
reset input, or by the core step of a SOFT_RESET. -/
def Obligations.NoiseCounterMovesOnlyAsStated : Prop :=
  ∀ s t : State, step s = .next t →
    t.regs.noiseCtr = s.regs.noiseCtr ∨
    (decodeCommand s.cmdLatch = .ok .addNoise ∧ s.regs.status.busy = true ∧ t.regs.status.rxValid = true ∧
      t.regs.noiseCtr = s.regs.noiseCtr + s.regs.nsamples.zeroExtend 64) ∨
    (t.regs.noiseCtr = 0#64 ∧
      ((decodeCommand s.cmdLatch = .ok .softReset ∧ s.regs.status.busy = true) ∨
        (∃ rest, s.inbox = .powerOnReset :: rest) ∨
        (s.regs.status.busy = false ∧ ∃ p v rest,
          s.inbox = .transaction p :: rest ∧ decodeTransaction p = some (.wr 0x017#20 v)) ∨
        (s.regs.status.busy = false ∧ ∃ b bytes rest,
          s.inbox = .bridgeWrite b bytes :: rest ∧ bytes.length = 8 ∧ b.toNat = 8 * 0x017)))

/-! ## DEMODULATE -/

/-- The checks of DEMODULATE and their order, and that with none failing, whatever the sign of a finite THRESHOLD, it succeeds
(43_envelope_demod.md R202, 60_exceptions.md R253). -/
def Obligations.DemodulateChecks : Prop :=
  ∀ s : State,
    (s.regs.status.cfgValid = false → exec .demodulate s = .next (s.raise .precond 0x01#8 0x04#8)) ∧
    (s.regs.status.cfgValid = true → s.regs.status.rxValid = false →
      exec .demodulate s = .next (s.raise .precond 0x03#8 0x04#8)) ∧
    (s.regs.status.cfgValid = true → s.regs.status.rxValid = true → s.regs.nbits ≠ s.regs.rxN →
      exec .demodulate s = .next (s.raise .precond 0x04#8 0x04#8)) ∧
    (s.regs.status.cfgValid = true → s.regs.status.rxValid = true → s.regs.nbits = s.regs.rxN →
      isFinite s.regs.threshold = false → exec .demodulate s = .next (s.raise .operand 0x03#8 0x04#8)) ∧
    (s.regs.status.cfgValid = true → s.regs.status.rxValid = true → s.regs.nbits = s.regs.rxN →
      isFinite s.regs.threshold = true → ∃ t, exec .demodulate s = .next t ∧ t.regs.status.rxbValid = true ∧
        t.regs.status.err = s.regs.status.err ∧ t.regs.errCode = s.regs.errCode)

/-- A DEMODULATE whose checks pass (43_envelope_demod.md R200, R203 to R209), for the words `w n` read from RX: FILT[n] is
the filter's output for the rectified samples 0..n as long as these are finite, and from the first non-finite sample n0 on
each FILT[n], n < L, is a fresh draw of its own, counted after those of the reads; BITS_OUT[i] is 1 iff the stored FILT word
at `i × spb + (spb div 2)` is greater than THRESHOLD; RXB_N and the flags are set and every other element and register is
unchanged. With at least one sample a bit the draws are exactly these.
The filter is causal by its record and has the zero-input guard (log entries 5 and 6), and the draws, that of a word never
written among them, are free values (log entry 4): it holds for every one. -/
def Obligations.DemodulateRecoversBits : Prop :=
  ∀ s : State, s.regs.status.cfgValid = true → s.regs.status.rxValid = true → s.regs.nbits = s.regs.rxN →
    isFinite s.regs.threshold = true →
    let l := s.regs.nbits.toNat * s.regs.spb.toNat
    let w := s.mem.rx.seen Config.freeWord s.draws
    let drawn := s.draws + s.mem.rx.unwritten l
    ∃ t : State, exec .demodulate s = .next t ∧
      (∀ n, n < l → (∀ m, m ≤ n → isFinite (w m) = true) →
        t.mem.filt.read n = some (lowPass Config.num
          (Config.num.lpfCoeffs s.regs.carrierFreq.toNat s.regs.sampleRate.toNat)
          ((List.range (n + 1)).map (fun m => |decQ (w m)|)))) ∧
      (∀ n0, n0 < l → isFinite (w n0) = false → (∀ m, m < n0 → isFinite (w m) = true) →
        (∀ n, n0 ≤ n → n < l → t.mem.filt.read n = some (Config.freeWord (drawn + (n - n0)))) ∧
        t.draws = drawn + (l - n0)) ∧
      ((∀ n, n < l → isFinite (w n) = true) → 1 ≤ s.regs.spb.toNat → t.draws = drawn) ∧
      (∀ n, l ≤ n → t.mem.filt.read n = s.mem.filt.read n) ∧
      (∀ i v, i < s.regs.nbits.toNat → t.mem.filt.read (i * s.regs.spb.toNat + s.regs.spb.toNat / 2) = some v →
        t.mem.bitsOut.read i = some ((dec v).gt (dec s.regs.threshold))) ∧
      (∀ i, i < s.regs.nbits.toNat → (t.mem.bitsOut.read i).isSome) ∧
      (∀ i, s.regs.nbits.toNat ≤ i → t.mem.bitsOut.read i = s.mem.bitsOut.read i) ∧ s.draws ≤ t.draws ∧
      t = { s with
        mem := { s.mem with filt := t.mem.filt, bitsOut := t.mem.bitsOut }
        regs := { s.regs with
          rxbN := s.regs.nbits
          status := { s.regs.status with busy := false, rxbValid := true, berValid := false }
          intStatus := { s.regs.intStatus with done := true } }
        draws := t.draws }

/-- Sign blind (43_envelope_demod.md R210(a)): two states that differ in the signs of their RX words alone give the same
FILT and BITS_OUT. An inference of R210, which the spec marks as derived. That the draws (words never written, FILT from a
non-finite sample on) are equal too is the model's: a draw is a function of the draw counter (log entry 4). -/
def Obligations.DemodulationIsSignBlind : Prop :=
  ∀ (s t : State) (rx : Buf Word),
    rx.map (fun c => (c.1, c.2 &&& 0x7FFFFFFFFFFFFFFF#64)) =
      s.mem.rx.map (fun c => (c.1, c.2 &&& 0x7FFFFFFFFFFFFFFF#64)) →
    s.regs.status.cfgValid = true → s.regs.status.rxValid = true → s.regs.nbits = s.regs.rxN →
    isFinite s.regs.threshold = true → exec .demodulate s = .next t →
    ∃ t' : State, exec .demodulate { s with mem := { s.mem with rx := rx } } = .next t' ∧
      t'.mem.filt = t.mem.filt ∧ t'.mem.bitsOut = t.mem.bitsOut

/-- Zero in, zero out, under every NUM (43_envelope_demod.md R210(d)): with every RX[n] decoding to 0, every FILT[n] is +0.0, and
with at least one sample a bit every BITS_OUT[i] is [0 > θ]. The filter's part rests on log entry 6.
R210(d) is an inference the spec marks as derived. -/
def Obligations.ZeroInputGivesZeroOutput : Prop :=
  ∀ s : State, s.regs.status.cfgValid = true → s.regs.status.rxValid = true → s.regs.nbits = s.regs.rxN →
    isFinite s.regs.threshold = true → 1 ≤ s.regs.spb.toNat →
    (∀ n, n < s.regs.nbits.toNat * s.regs.spb.toNat → ∃ v, s.mem.rx.read n = some v ∧ dec v = .fin 0) →
    ∃ t : State, exec .demodulate s = .next t ∧
      (∀ n, n < s.regs.nbits.toNat * s.regs.spb.toNat → t.mem.filt.read n = some 0#64) ∧
      (∀ i, i < s.regs.nbits.toNat → t.mem.bitsOut.read i = some (decide (decQ s.regs.threshold < 0)))

/-- The sampling index is the midpoint of its window (43_envelope_demod.md R205): `floor((i + 0.5) × spb)`, and inside the
window for spb ≥ 1.
An inference of R205, which the spec marks as derived. -/
def Obligations.SamplingIndexIsMidpoint : Prop :=
  ∀ spb i n : Nat, 1 ≤ spb → i < n →
    (samplingIndex spb i : ℤ) = ⌊((i : ℚ) + 1 / 2) * (spb : ℚ)⌋ ∧
    i * spb ≤ samplingIndex spb i ∧ samplingIndex spb i < (i + 1) * spb ∧ (i + 1) * spb ≤ n * spb

/-! ## COMPUTE_BER -/

/-- The checks of COMPUTE_BER and their order (44_ber_counter.md R232, R234; 60_exceptions.md R253). -/
def Obligations.ComputeBerChecks : Prop :=
  ∀ s : State,
    (s.regs.status.cfgValid = false → exec .computeBer s = .next (s.raise .precond 0x01#8 0x05#8)) ∧
    (s.regs.status.cfgValid = true → s.regs.status.rxbValid = false →
      exec .computeBer s = .next (s.raise .precond 0x05#8 0x05#8)) ∧
    (s.regs.status.cfgValid = true → s.regs.status.rxbValid = true → s.regs.nbits ≠ s.regs.rxbN →
      exec .computeBer s = .next (s.raise .precond 0x06#8 0x05#8)) ∧
    (s.regs.status.cfgValid = true → s.regs.status.rxbValid = true → s.regs.nbits = s.regs.rxbN → s.regs.nbits = 0 →
      exec .computeBer s = .next (s.raise .empty 0x01#8 0x05#8))

/-- A COMPUTE_BER whose checks pass (44_ber_counter.md R230, R231, R233), for the bits read, BITS_IN and then BITS_OUT:
BER_ERRORS is the count of positions i < N whose bits differ, BER_BITS is N and BER is R64 of their ratio; no buffer,
no other register and no other flag changes. A bit never written is a draw of its own (a free value, log entry 4). -/
def Obligations.ComputeBerCountsErrors : Prop :=
  ∀ s : State, s.regs.status.cfgValid = true → s.regs.status.rxbValid = true → s.regs.nbits = s.regs.rxbN →
    s.regs.nbits ≠ 0 →
    let n := s.regs.nbits.toNat
    let drawn := s.draws + s.mem.bitsIn.unwritten n
    let a := s.mem.bitsIn.seen Config.freeBit s.draws
    let b := s.mem.bitsOut.seen Config.freeBit drawn
    ∃ t : State, exec .computeBer s = .next t ∧
      t.regs.berErrors.toNat = ((Finset.range n).filter (fun i => a i ≠ b i)).card ∧
      t.regs.berBits = s.regs.nbits ∧
      t.regs.ber = r64 ((t.regs.berErrors.toNat : ℚ) / (n : ℚ)) ∧
      t = { s with
        regs := { s.regs with
          berErrors := t.regs.berErrors, berBits := t.regs.berBits, ber := t.regs.ber
          status := { s.regs.status with busy := false, berValid := true }
          intStatus := { s.regs.intStatus with done := true } }
        draws := drawn + s.mem.bitsOut.unwritten n }

/-- The BER word lies in [+0.0, 1.0], and it is +0.0 iff no bit differs and 1.0 iff every bit does (44_ber_counter.md R233,
R235). -/
def Obligations.BerRatioEnds : Prop :=
  ∀ e n : Nat, 1 ≤ n → n < 2 ^ 32 → e ≤ n →
    0 ≤ decQ (r64 ((e : ℚ) / (n : ℚ))) ∧ decQ (r64 ((e : ℚ) / (n : ℚ))) ≤ 1 ∧
    (r64 ((e : ℚ) / (n : ℚ)) = 0x0000000000000000#64 ↔ e = 0) ∧
    (r64 ((e : ℚ) / (n : ℚ)) = 0x3FF0000000000000#64 ↔ e = n)

/-! ## Binary64 and the reference numerics -/

/-- R64 gives the nearest finite binary64 value, a tie to the even significand, below the overflow bound; the infinity of the
sign from that bound on; and +0.0 for 0 (00_scope.md R11). -/
def Obligations.RoundingIsNearestEven : Prop :=
  r64 (0 : ℝ) = 0x0000000000000000#64 ∧
  (∀ v : ℝ, (2 : ℝ) ^ 1024 - (2 : ℝ) ^ 970 ≤ v → r64 v = 0x7FF0000000000000#64) ∧
  (∀ v : ℝ, v ≤ -((2 : ℝ) ^ 1024 - (2 : ℝ) ^ 970) → r64 v = 0xFFF0000000000000#64) ∧
  (∀ v : ℝ, |v| < (2 : ℝ) ^ 1024 - (2 : ℝ) ^ 970 → isFinite (r64 v) = true ∧
    ∀ w : Word, isFinite w = true → |(decQ (r64 v) : ℝ) - v| ≤ |(decQ w : ℝ) - v| ∧
      (|(decQ (r64 v) : ℝ) - v| = |(decQ w : ℝ) - v| → decQ w ≠ decQ (r64 v) → (r64 v).getLsbD 0 = false))

/-- A rational rounds to the same word as the real it is: one R64 for both (00_scope.md R11). -/
def Obligations.RoundingAgreesOnRationals : Prop :=
  ∀ q : ℚ, r64 (q : ℝ) = r64 q

/-- Exact zeros and the exact peak of the IDEAL carrier, and its bound (41_ask_modulator.md R167(c), (d), (e)).
An inference of R167, which the spec marks as derived. -/
def Obligations.IdealCarrierProperties : Prop :=
  ∀ (a : Word) (p m : Nat), isFinite a = true → 0 < m →
    (2 * p % m = 0 → idealCarrier a p m = 0x0000000000000000#64) ∧
    (4 * p = m → idealCarrier a p m = r64 (decQ a)) ∧
    |decQ (idealCarrier a p m)| ≤ |decQ a|

/-- Properties of the IDEAL filter design (40_config.md R146(a), (b), (c)): unit DC gain, a numerator that is b0 times the
binomials of (1 + x)^5, symmetric, and a0 = 1.
An inference of R146, which the spec marks as derived. -/
def Obligations.IdealDesignProperties : Prop :=
  ∀ fc fs : Nat, 0 < fc → 2 * fc < fs →
    (∑ i : Fin 6, (idealLpfCoeffs fc fs).bAt i) = (∑ i : Fin 6, (idealLpfCoeffs fc fs).aAt i) ∧
    (∀ i : Fin 6, (idealLpfCoeffs fc fs).bAt i = (Nat.choose 5 i.val : ℝ) * (idealLpfCoeffs fc fs).bAt 0) ∧
    (∀ i : Fin 6, (idealLpfCoeffs fc fs).bAt i = (idealLpfCoeffs fc fs).bAt (5 - i)) ∧
    (idealLpfCoeffs fc fs).aAt 0 = 1 ∧ idealA (cutoff fc fs) 0 = 1

/-- The IDEAL filter is the recursion from rest (43_envelope_demod.md R204): its n-th word is R64 of y[n], where
y[n] = Σ b_i x[n−i] − Σ a_i y[n−i] and what lies before the start is 0. -/
def Obligations.IdealFilterIsRecursion : Prop :=
  ∀ (b a : Fin 6 → ℝ) (x : Nat → ℝ), ∃ y : Nat → ℝ,
    (∀ n, y n = (∑ i : Fin 6, if i.val ≤ n then b i * x (n - i.val) else 0) -
      ∑ i : Fin 5, if i.val + 1 ≤ n then a i.succ * y (n - (i.val + 1)) else 0) ∧
    ∀ n, idealNum.lpf b a ((List.range (n + 1)).map x) = r64 (y n)

/-- Under IDEAL the guard that gives +0.0 for an input of zeros changes nothing (43_envelope_demod.md R204, R210(d); log
entry 6): the filter's own output is +0.0 there. -/
def Obligations.ZeroGuardIsInertUnderIdeal : Prop :=
  ∀ (c : Coeffs) (xs : List ℚ), lowPass idealNum c xs = idealLpf c.bAt c.aAt (xs.map (fun x : ℚ => (x : ℝ)))

/-! ## Invariants -/

/-- The invariant holds at reset. -/
def Obligations.ResetMeetsInvariant : Prop :=
  State.reset.Inv Config.params

/-- Every step keeps the invariant (10_state.md R37, R41; 43_envelope_demod.md R201): the valid flags stay chained, the error record sound,
a valid configuration stays one that CONFIG has validated, the lengths and results agree, every valid stage's sequence is
written, and the buffers keep their canonical form and capacity. -/
def Obligations.StepKeepsInvariant : Prop :=
  ∀ s t : State, s.Inv Config.params → step s = .next t → t.Inv Config.params

/-- In a state that meets the invariant, a DEMODULATE whose checks pass reads only words that ADD_NOISE wrote and samples only words it
has just stored: with finite samples it takes no draw (43_envelope_demod.md R201).
An inference of R201, which the spec marks as derived. -/
def Obligations.DemodulateStaysInBounds : Prop :=
  ∀ s : State, s.Inv Config.params → s.regs.status.rxValid = true → s.regs.nbits = s.regs.rxN →
    isFinite s.regs.threshold = true → (∀ n v, s.mem.rx.read n = some v → isFinite v = true) →
    s.regs.nbits.toNat * s.regs.spb.toNat = s.regs.nsamples.toNat ∧
    s.regs.nbits.toNat * s.regs.spb.toNat ≤ Config.params.lMax ∧
    (∀ n, n < s.regs.nbits.toNat * s.regs.spb.toNat → (s.mem.rx.read n).isSome) ∧
    ∃ t : State, exec .demodulate s = .next t ∧ t.draws = s.draws ∧ t.regs.status.rxbValid = true
end

