-- ==== Sys2Proof/Laws/Buf.lean ====
section
/-! SUPPORT. What the buffer operations do: a store is read back and leaves every other element alone, and every
operation keeps the canonical form and the capacity. -/

namespace Sys2Proof.Machine

variable {α : Type}

@[simp] theorem buf_read_nil (k : Nat) : Buf.read ([] : Buf α) k = none := rfl

/-- A stored element is read back, and every other one is left alone. -/
theorem buf_read_write (b : Buf α) (k j : Nat) (v : α) :
    (b.write k v).read j = if j = k then some v else b.read j := by
  induction b with
  | nil => simp [Buf.write, Buf.read, eq_comm]
  | cons c rest ih =>
    obtain ⟨i, w⟩ := c
    by_cases hjk : j = k
    · subst hjk
      simp only [Buf.write, if_true]
      split
      · simp [Buf.read]
      · split
        · simp [Buf.read]
        · rename_i h1 h2
          simp only [Buf.read, ih, if_true]
          rw [if_neg (fun h => h2 h.symm)]
    · simp only [Buf.write, hjk, if_false] at ih ⊢
      split
      · simp only [Buf.read]; rw [if_neg (fun h => hjk h.symm)]
      · split
        · rename_i h1 h2; subst h2; simp only [Buf.read]; rw [if_neg (fun h => hjk h.symm), if_neg (fun h => hjk h.symm)]
        · simp only [Buf.read, ih]

theorem buf_read_append (a b : Buf α) (k : Nat) :
    Buf.read (a ++ b) k = ((Buf.read a k).or (Buf.read b k)) := by
  induction a with
  | nil => simp
  | cons c rest ih =>
    obtain ⟨i, w⟩ := c
    simp only [List.cons_append, Buf.read]
    split <;> simp [ih]

theorem buf_read_run (vs : List α) (i k : Nat) :
    Buf.read (Buf.run i vs) k = if i ≤ k then vs[k - i]? else none := by
  induction vs generalizing i with
  | nil => simp [Buf.run]
  | cons v vs ih =>
    simp only [Buf.run, Buf.read, ih]
    by_cases h : i = k
    · subst h; simp
    · rw [if_neg h]
      by_cases h2 : i ≤ k
      · rw [if_pos h2, if_pos (by omega), show k - i = (k - (i + 1)) + 1 by omega]; simp
      · rw [if_neg h2, if_neg (by omega)]

theorem buf_read_filter (b : Buf α) (n k : Nat) :
    Buf.read (b.filter (fun c => n ≤ c.1)) k = if n ≤ k then b.read k else none := by
  induction b with
  | nil => simp
  | cons c rest ih =>
    obtain ⟨i, w⟩ := c
    by_cases h : n ≤ i
    · simp only [List.filter_cons, h, decide_true, if_true, Buf.read, ih]
      by_cases hik : i = k
      · subst hik; simp [h]
      · simp [hik]
    · rw [List.filter_cons_of_neg (by simpa using h), ih]
      simp only [Buf.read]
      by_cases hik : i = k
      · subst hik; simp [h]
      · simp [hik]

/-- A fill stores the values in the first elements and leaves every later element alone. -/
theorem buf_read_fill (b : Buf α) (vs : List α) (k : Nat) :
    (b.fill vs).read k = if k < vs.length then vs[k]? else b.read k := by
  unfold Buf.fill
  rw [buf_read_append, buf_read_run, buf_read_filter]
  by_cases h : k < vs.length
  · simp [h]
  · simp [h, Nat.le_of_not_lt h]

/-- The canonical form, over the whole list. -/
theorem buf_wf_iff (b : Buf α) : b.wf = true ↔ b.Pairwise (fun c d => c.1 < d.1) := by
  induction b with
  | nil => simp [Buf.wf]
  | cons c rest ih =>
    cases rest with
    | nil => simp [Buf.wf]
    | cons d rest =>
      simp only [Buf.wf, Bool.and_eq_true, decide_eq_true_eq, ih, List.pairwise_cons (a := c)]
      constructor
      · rintro ⟨h, hp⟩
        refine ⟨fun e he => ?_, hp⟩
        rcases List.mem_cons.mp he with rfl | he
        · exact h
        · exact lt_trans h ((List.pairwise_cons.mp hp).1 e he)
      · rintro ⟨h, hp⟩
        exact ⟨h d (by simp), hp⟩

theorem buf_mem_write (b : Buf α) (k : Nat) (v : α) (c : Nat × α) (h : c ∈ b.write k v) : c = (k, v) ∨ c ∈ b := by
  induction b with
  | nil => simpa [Buf.write] using h
  | cons d rest ih =>
    simp only [Buf.write] at h
    split at h
    · simpa using h
    · split at h
      · rcases List.mem_cons.mp h with h | h
        · exact .inl h
        · exact .inr (List.mem_cons_of_mem _ h)
      · rcases List.mem_cons.mp h with h | h
        · exact .inr (by simp [h])
        · rcases ih h with h | h
          · exact .inl h
          · exact .inr (List.mem_cons_of_mem _ h)

/-- A store keeps the canonical form. -/
theorem buf_wf_write (b : Buf α) (k : Nat) (v : α) (h : b.wf = true) : (b.write k v).wf = true := by
  rw [buf_wf_iff] at h ⊢
  induction b with
  | nil => simp [Buf.write]
  | cons d rest ih =>
    obtain ⟨hd, hr⟩ := List.pairwise_cons.mp h
    simp only [Buf.write]
    split
    · rename_i hk
      refine List.pairwise_cons.mpr ⟨fun e he => ?_, h⟩
      rcases List.mem_cons.mp he with rfl | he
      · exact hk
      · exact lt_trans hk (hd e he)
    · split
      · rename_i hk; subst hk; exact List.pairwise_cons.mpr ⟨hd, hr⟩
      · refine List.pairwise_cons.mpr ⟨fun e he => ?_, ih hr⟩
        rcases buf_mem_write rest k v e he with rfl | he
        · show d.1 < k; omega
        · exact hd e he

theorem buf_mem_run (vs : List α) (i : Nat) (c : Nat × α) (h : c ∈ Buf.run i vs) : i ≤ c.1 ∧ c.1 < i + vs.length := by
  induction vs generalizing i with
  | nil => simp [Buf.run] at h
  | cons v vs ih =>
    rcases List.mem_cons.mp h with rfl | h
    · simp
    · have := ih (i + 1) h; simp only [List.length_cons]; omega

theorem buf_run_pairwise (vs : List α) (i : Nat) : (Buf.run i vs).Pairwise (fun c d => c.1 < d.1) := by
  induction vs generalizing i with
  | nil => simp [Buf.run]
  | cons v vs ih =>
    refine List.pairwise_cons.mpr ⟨fun e he => ?_, ih (i + 1)⟩
    have := buf_mem_run vs (i + 1) e he
    show i < e.1; omega

/-- A fill keeps the canonical form. -/
theorem buf_wf_fill (b : Buf α) (vs : List α) (h : b.wf = true) : (b.fill vs).wf = true := by
  rw [buf_wf_iff] at h ⊢
  unfold Buf.fill
  refine List.pairwise_append.mpr ⟨buf_run_pairwise vs 0, h.filter _, fun c hc d hd => ?_⟩
  have := buf_mem_run vs 0 c hc
  have hd := (List.mem_filter.mp hd).2
  simp only [decide_eq_true_eq] at hd
  omega

/-- A store below the capacity keeps within the capacity. -/
theorem buf_within_write (b : Buf α) (k n : Nat) (v : α) (hk : k < n) (h : b.within n = true) :
    (b.write k v).within n = true := by
  simp only [Buf.within, List.all_eq_true, decide_eq_true_eq] at h ⊢
  intro c hc
  rcases buf_mem_write b k v c hc with rfl | hc
  · exact hk
  · exact h c hc

/-- A fill of at most the capacity keeps within the capacity. -/
theorem buf_within_fill (b : Buf α) (vs : List α) (n : Nat) (hn : vs.length ≤ n) (h : b.within n = true) :
    (b.fill vs).within n = true := by
  simp only [Buf.within, List.all_eq_true, decide_eq_true_eq, Buf.fill, List.mem_append] at h ⊢
  rintro c (hc | hc)
  · have := buf_mem_run vs 0 c hc; omega
  · exact h c (List.mem_filter.mp hc).1

/-- As many values are read as there are indices. -/
@[simp] theorem readMany_length (b : Buf α) (draw : Nat → α) (ks : List Nat) (n : Nat) :
    (b.readMany draw ks n).1.length = ks.length := by
  induction ks generalizing n with
  | nil => rfl
  | cons k ks ih => simp only [Buf.readMany]; split <;> simp [ih]

/-- A written element is read as it stands, whatever is drawn for the others. -/
theorem readMany_get (b : Buf α) (draw : Nat → α) (ks : List Nat) (n i : Nat) (v : α) (k : Nat)
    (hk : ks[i]? = some k) (hv : b.read k = some v) : (b.readMany draw ks n).1[i]? = some v := by
  induction ks generalizing n i with
  | nil => simp at hk
  | cons j ks ih =>
    cases i with
    | zero =>
      simp only [List.getElem?_cons_zero, Option.some.injEq] at hk
      subst hk
      simp [Buf.readMany, hv]
    | succ i =>
      simp only [List.getElem?_cons_succ] at hk
      simp only [Buf.readMany]
      split <;> simpa using ih _ i hk

/-- Reading only written elements takes no draw and gives their values. -/
theorem readMany_written (b : Buf α) (draw : Nat → α) (ks : List Nat) (n : Nat) (f : Nat → α)
    (h : ∀ k ∈ ks, b.read k = some (f k)) : b.readMany draw ks n = (ks.map f, n) := by
  induction ks with
  | nil => rfl
  | cons k ks ih =>
    simp only [Buf.readMany, h k (by simp), ih (fun j hj => h j (by simp [hj])), List.map_cons]

/-- A read never takes a draw back. -/
theorem readMany_draws (b : Buf α) (draw : Nat → α) (ks : List Nat) (n : Nat) : n ≤ (b.readMany draw ks n).2 := by
  induction ks generalizing n with
  | nil => simp [Buf.readMany]
  | cons k ks ih =>
    simp only [Buf.readMany]
    split
    · exact ih n
    · exact le_trans (Nat.le_succ n) (ih (n + 1))

theorem readMany_append (b : Buf α) (draw : Nat → α) (ks js : List Nat) (n : Nat) :
    b.readMany draw (ks ++ js) n =
      ((b.readMany draw ks n).1 ++ (b.readMany draw js (b.readMany draw ks n).2).1,
        (b.readMany draw js (b.readMany draw ks n).2).2) := by
  induction ks generalizing n with
  | nil => rfl
  | cons k ks ih => simp only [List.cons_append, Buf.readMany]; split <;> simp [ih]

theorem unwritten_succ (b : Buf α) (n : Nat) :
    b.unwritten (n + 1) = b.unwritten n + if (b.read n).isNone then 1 else 0 := by
  simp [Buf.unwritten, List.range_succ, List.countP_append, List.countP_singleton]

/-- A written element is seen as it stands. -/
theorem seen_written (b : Buf α) (draw : Nat → α) (drawn k : Nat) (v : α) (h : b.read k = some v) :
    b.seen draw drawn k = v := by simp [Buf.seen, h]

/-- No draw is taken where every element is written. -/
theorem unwritten_eq_zero (b : Buf α) (n : Nat) (h : ∀ k, k < n → (b.read k).isSome) : b.unwritten n = 0 := by
  simp only [Buf.unwritten, List.countP_eq_zero, List.mem_range]
  intro k hk
  simp [Option.isSome_iff_ne_none.mp (h k hk)]

/-- Everything that reading the first n elements can do. -/
theorem readMany_range (b : Buf α) (draw : Nat → α) (n drawn : Nat) :
    b.readMany draw (List.range n) drawn = ((List.range n).map (b.seen draw drawn), drawn + b.unwritten n) := by
  induction n with
  | zero => rfl
  | succ n ih =>
    rw [List.range_succ, readMany_append, ih, unwritten_succ, List.map_append, List.map_singleton]
    cases h : b.read n <;> simp [Buf.readMany, Buf.seen, h, Nat.add_assoc]

end Sys2Proof.Machine
end

