-- ==== Sys2Proof/Laws/State.lean ====
section
/-! SUPPORT. The state after each shared update, field by field. -/

namespace Sys2Proof.Machine

section Updates

variable (s : State) (f : Status) (v : Word) (code : ErrorKind) (info op : BitVec 8) (b : Bool)

@[simp] theorem setStatus_regs : (s.setStatus f).regs = { s.regs with status := f } := rfl
@[simp] theorem setStatus_cmdLatch : (s.setStatus f).cmdLatch = s.cmdLatch := rfl
@[simp] theorem setStatus_mem : (s.setStatus f).mem = s.mem := rfl
@[simp] theorem setStatus_draws : (s.setStatus f).draws = s.draws := rfl
@[simp] theorem setStatus_inbox : (s.setStatus f).inbox = s.inbox := rfl
@[simp] theorem setStatus_responses : (s.setStatus f).responses = s.responses := rfl
@[simp] theorem setStatus_schedule : (s.setStatus f).schedule = s.schedule := rfl

@[simp] theorem clearBusy_regs :
    s.clearBusy.regs = { s.regs with status := { s.regs.status with busy := false } } := rfl
@[simp] theorem clearBusy_cmdLatch : s.clearBusy.cmdLatch = s.cmdLatch := rfl
@[simp] theorem clearBusy_mem : s.clearBusy.mem = s.mem := rfl
@[simp] theorem clearBusy_draws : s.clearBusy.draws = s.draws := rfl
@[simp] theorem clearBusy_inbox : s.clearBusy.inbox = s.inbox := rfl
@[simp] theorem clearBusy_responses : s.clearBusy.responses = s.responses := rfl
@[simp] theorem clearBusy_schedule : s.clearBusy.schedule = s.schedule := rfl

@[simp] theorem respond_regs : (s.respond v).regs = s.regs := rfl
@[simp] theorem respond_cmdLatch : (s.respond v).cmdLatch = s.cmdLatch := rfl
@[simp] theorem respond_mem : (s.respond v).mem = s.mem := rfl
@[simp] theorem respond_draws : (s.respond v).draws = s.draws := rfl
@[simp] theorem respond_inbox : (s.respond v).inbox = s.inbox := rfl
@[simp] theorem respond_responses : (s.respond v).responses = v :: s.responses := rfl
@[simp] theorem respond_schedule : (s.respond v).schedule = s.schedule := rfl

@[simp] theorem record_regs : (s.record code info op).regs = s.regs.record code info op := rfl
@[simp] theorem record_cmdLatch : (s.record code info op).cmdLatch = s.cmdLatch := rfl
@[simp] theorem record_mem : (s.record code info op).mem = s.mem := rfl
@[simp] theorem record_draws : (s.record code info op).draws = s.draws := rfl
@[simp] theorem record_inbox : (s.record code info op).inbox = s.inbox := rfl
@[simp] theorem record_responses : (s.record code info op).responses = s.responses := rfl
@[simp] theorem record_schedule : (s.record code info op).schedule = s.schedule := rfl

@[simp] theorem raise_cmdLatch : (s.raise code info op).cmdLatch = s.cmdLatch := rfl
@[simp] theorem raise_mem : (s.raise code info op).mem = s.mem := rfl
@[simp] theorem raise_draws : (s.raise code info op).draws = s.draws := rfl
@[simp] theorem raise_inbox : (s.raise code info op).inbox = s.inbox := rfl
@[simp] theorem raise_responses : (s.raise code info op).responses = s.responses := rfl
@[simp] theorem raise_schedule : (s.raise code info op).schedule = s.schedule := rfl

@[simp] theorem complete_status : s.complete.regs.status = { s.regs.status with busy := false } := rfl
@[simp] theorem complete_intStatus : s.complete.regs.intStatus = { s.regs.intStatus with done := true } := rfl
@[simp] theorem complete_cmdLatch : s.complete.cmdLatch = s.cmdLatch := rfl
@[simp] theorem complete_mem : s.complete.mem = s.mem := rfl
@[simp] theorem complete_draws : s.complete.draws = s.draws := rfl
@[simp] theorem complete_inbox : s.complete.inbox = s.inbox := rfl
@[simp] theorem complete_responses : s.complete.responses = s.responses := rfl
@[simp] theorem complete_schedule : s.complete.schedule = s.schedule := rfl

@[simp] theorem softReset_regs : s.softReset.regs = Regs.reset := rfl
@[simp] theorem softReset_cmdLatch : s.softReset.cmdLatch = s.cmdLatch := rfl
@[simp] theorem softReset_mem : s.softReset.mem = s.mem := rfl
@[simp] theorem softReset_draws : s.softReset.draws = s.draws := rfl
@[simp] theorem softReset_inbox : s.softReset.inbox = s.inbox := rfl
@[simp] theorem softReset_responses : s.softReset.responses = s.responses := rfl
@[simp] theorem softReset_schedule : s.softReset.schedule = s.schedule := rfl

@[simp] theorem powerOnReset_regs : s.powerOnReset.regs = Regs.reset := rfl
@[simp] theorem powerOnReset_cmdLatch : s.powerOnReset.cmdLatch = 0#64 := rfl
@[simp] theorem powerOnReset_mem : s.powerOnReset.mem = Memory.reset := rfl
@[simp] theorem powerOnReset_draws : s.powerOnReset.draws = s.draws := rfl
@[simp] theorem powerOnReset_inbox : s.powerOnReset.inbox = s.inbox := rfl
@[simp] theorem powerOnReset_responses : s.powerOnReset.responses = s.responses := rfl
@[simp] theorem powerOnReset_schedule : s.powerOnReset.schedule = s.schedule := rfl

end Updates

section Records

variable (r : Regs) (code : ErrorKind) (info op : BitVec 8)

/-- Everything the error record can change (60_exceptions.md R252): STATUS.ERR or STATUS.ERR_MULTI, ERR_CODE where no error
stood, and INT_STATUS.ERRI. -/
theorem record_eq :
    r.record code info op =
      { r with
        status := { r.status with err := true, errMulti := r.status.errMulti || r.status.err }
        errCode := if r.status.err then r.errCode else ⟨code, info, op⟩
        intStatus := { r.intStatus with erri := true } } := by
  unfold Regs.record
  cases h : r.status.err <;> simp_all

/-- A raise is a record with BUSY cleared. -/
theorem raise_eq (s : State) :
    s.raise code info op =
      { s with
        regs := { s.regs with
          status := { s.regs.status with busy := false, err := true, errMulti := s.regs.status.errMulti || s.regs.status.err }
          errCode := if s.regs.status.err then s.regs.errCode else ⟨code, info, op⟩
          intStatus := { s.regs.intStatus with erri := true } } } := by
  simp [State.raise, State.record, State.clearBusy, State.setStatus, record_eq]

end Records

end Sys2Proof.Machine
end

