-- ==== Sys2Proof/Laws/Port.lean ====
section
/-! SUPPORT. What an access on the host port does: the decoding of its address, and everything a read or a write can
change. -/

namespace Sys2Proof.Machine

/-- Every register is in the list of the register map. -/
theorem reg_mem_all (r : Reg) : r ∈ Reg.all := by
  cases r <;> simp [Reg.all, Reg.plain]

/-- No two registers share an address. -/
theorem reg_addr_injective : ∀ r ∈ Reg.all, ∀ q ∈ Reg.all, r.addr = q.addr → r = q := by
  decide

/-- Register addresses lie in 0x000–0x0FF. -/
theorem reg_addr_lt (r : Reg) : r.addr < 0x100 := by
  cases r <;> simp only [Reg.addr] <;> omega

/-- The register found at a register's address is that register. -/
theorem regAt_addr (r : Reg) : regAt r.addr = some r := by
  have h : (regAt r.addr).isSome := by
    unfold regAt
    rw [List.find?_isSome]
    exact ⟨r, reg_mem_all r, by simp⟩
  obtain ⟨q, hq⟩ := Option.isSome_iff_exists.mp h
  have ha : q.addr = r.addr := by simpa using List.find?_some hq
  rw [hq, reg_addr_injective q (reg_mem_all q) r (reg_mem_all r) ha]

/-- A register is found only at its address. -/
theorem regAt_some {n : Nat} {r : Reg} (h : regAt n = some r) : r.addr = n := by
  simpa using List.find?_some h

/-- No register is found where no register has its address. -/
theorem regAt_none {n : Nat} (h : ∀ r : Reg, r.addr ≠ n) : regAt n = none := by
  cases hr : regAt n with
  | none => rfl
  | some r => exact absurd (regAt_some hr) (h r)

/-- A register's address reaches it (20_memory.md R83). -/
theorem target_reg (p : Params) (a : Addr) (r : Reg) (h : a.toNat = r.addr) : target p a = .reg r := by
  simp only [target, h, regAt_addr]

/-- Where the address is no register's, a window's element or nothing is reached (20_memory.md R84). -/
theorem target_window (p : Params) (a : Addr) (h : ∀ r : Reg, r.addr ≠ a.toNat) :
    target p a =
      match Window.all.find? (fun w => decide (w.base ≤ a.toNat ∧ a.toNat - w.base < w.capacity p)) with
      | some w => .elem w (a.toNat - w.base)
      | none => .reserved := by
  simp only [target, regAt_none h] <;> rfl

theorem nMax_le (p : Params) : p.nMax ≤ 65536 := p.nMaxPred.isLt
theorem lMax_le (p : Params) : p.lMax ≤ 65536 := p.lMaxPred.isLt
theorem nMax_pos (p : Params) : 1 ≤ p.nMax := Nat.succ_pos _
theorem lMax_pos (p : Params) : 1 ≤ p.lMax := Nat.succ_pos _

/-- No window is larger than 0x10000 words (20_memory.md R83). -/
theorem capacity_le (p : Params) (w : Window) : w.capacity p ≤ 65536 := by
  cases w
  all_goals first
    | exact nMax_le p
    | exact lMax_le p

/-- What a read leaves: the host's response and the draws are all it can change. -/
theorem readPort_eq (p : Params) (a : Addr) (s : State) :
    ∃ v n, readPort p a s = { s with responses := v :: s.responses, draws := n } ∧ (n = s.draws ∨ n = s.draws + 1) := by
  unfold readPort State.hostRead
  cases State.held p s (target p a) with
  | some v => exact ⟨v, s.draws, rfl, .inl rfl⟩
  | none => exact ⟨_, s.draws + 1, rfl, .inr rfl⟩

/-- A read of a held value returns it and changes nothing else. -/
theorem readPort_held (p : Params) (a : Addr) (s : State) (v : Word) (h : s.held p (target p a) = some v) :
    readPort p a s = s.respond v := by
  simp only [readPort, State.hostRead, h]

/-- A read that is left open returns a fresh draw. -/
theorem readPort_draw (p : Params) (a : Addr) (s : State) (h : s.held p (target p a) = none) :
    readPort p a s = { s.respond ((target p a).draw p s.draws) with draws := s.draws + 1 } := by
  simp only [readPort, State.hostRead, h, State.respond]

/-- Everything a write while BUSY = 1 can do (20_memory.md R89). -/
theorem hostWriteBusy_cases (s : State) (t : Target) (v : Word) :
    s.hostWriteBusy t v = { s with regs := { s.regs with intStatus := s.regs.intStatus.clear v } } ∨
      s.hostWriteBusy t v = { s with regs := { s.regs with intEnable := IntEnable.ofWord v } } ∨
      s.hostWriteBusy t v = s.record .busy 0x00#8 0xFF#8 ∨ s.hostWriteBusy t v = s := by
  unfold State.hostWriteBusy
  split
  · exact .inl rfl
  · exact .inr (.inl rfl)
  · split
    · exact .inr (.inr (.inl rfl))
    · exact .inr (.inr (.inr rfl))

end Sys2Proof.Machine
end

