-- ==== Sys2Proof/Laws/Sequencer.lean ====
section
/-! SUPPORT. What a step can do, said once: the shared forms of a command's core step, and the cases of the machine's
step. -/

namespace Sys2Proof.Machine

/-- A command's core step ends in one of two ways (30_encoding.md R115). -/
theorem perform_cases (op : BitVec 8) (check : Option (ErrorKind × BitVec 8)) (effect s : State) :
    (∃ code info, check = some (code, info) ∧ perform op check effect s = s.raise code info op) ∨
      (check = none ∧ perform op check effect s = effect.complete) := by
  cases check with
  | none => exact .inr ⟨rfl, rfl⟩
  | some c => exact .inl ⟨c.1, c.2, rfl, rfl⟩

/-- What a turn costs: the agent that moves, with only the schedule and the draws changed. -/
theorem nextAgent_frame {p : Params} {s s' : State} {a : Agent} (h : nextAgent p s = some (a, s')) :
    s' = { s with schedule := s'.schedule, draws := s'.draws } ∧ s.draws ≤ s'.draws ∧
      (a = .core → s.regs.status.busy = true) ∧ (a = .host → s.inbox ≠ []) := by
  unfold nextAgent at h
  split at h
  · simp at h
  · next hb _ =>
    cases h
    exact ⟨rfl, le_refl _, fun _ => hb, fun hc => by cases hc⟩
  · next hb hi =>
    cases h
    refine ⟨rfl, le_refl _, ?_, ?_⟩
    · intro hc; exact absurd hc (by decide)
    · intro _; rw [hi]; exact List.cons_ne_nil _ _
  · next hb hi =>
    split at h <;> cases h
    · exact ⟨rfl, le_refl _, fun _ => hb, fun _ => by rw [hi]; exact List.cons_ne_nil _ _⟩
    · exact ⟨rfl, Nat.le_succ _, fun _ => hb, fun _ => by rw [hi]; exact List.cons_ne_nil _ _⟩

/-- The opcode map gives commands only. -/
theorem decodeCommand_isCommand {w : Word} {i : Instr} (h : decodeCommand w = .ok i) : i.isCommand = true := by
  unfold decodeCommand at h
  split at h
  · simp at h
  · next j hj =>
    split at h
    · simp only [Except.ok.injEq] at h; subst h
      simp only [opcodeMap, List.lookup] at hj
      repeat' split at hj
      all_goals first
        | (simp only [Option.some.injEq] at hj; subst hj; rfl)
        | simp at hj
    · simp at h

/-- A packed pattern stands for a read or a write. -/
theorem decodeTransaction_cases {t : Packed} {i : Instr} (h : decodeTransaction t = some i) :
    (∃ a v, i = .wr a v) ∨ ∃ a, i = .rd a := by
  unfold decodeTransaction at h
  split at h
  · simp only [Option.some.injEq] at h; exact .inl ⟨_, _, h.symm⟩
  · split at h
    · simp only [Option.some.injEq] at h; exact .inr ⟨_, h.symm⟩
    · simp at h

/-- Everything an event at the block's outside can do. -/
theorem hostEvent_cases {e : HostEvent} {s t : State} (h : hostEvent e s = .next t) :
    (∃ a v, t = s.hostWrite (target Config.params a) v) ∨ (∃ a, t = readPort Config.params a s) ∨ t = s.powerOnReset := by
  unfold hostEvent at h
  split at h
  · split at h
    · next i hi =>
      rcases decodeTransaction_cases hi with ⟨a, v, rfl⟩ | ⟨a, rfl⟩
      · simp only [exec, execWr, Host.Outcome.next.injEq] at h; exact .inl ⟨a, v, h.symm⟩
      · simp only [exec, execRd, Host.Outcome.next.injEq] at h; exact .inr (.inl ⟨a, h.symm⟩)
    · simp at h
  · split at h
    · simp only [exec, execRd, Host.Outcome.next.injEq] at h; exact .inr (.inl ⟨_, h.symm⟩)
    · simp at h
  · split at h
    · simp only [exec, execWr, Host.Outcome.next.injEq] at h; exact .inl ⟨_, _, h.symm⟩
    · simp at h
  · simp only [Host.Outcome.next.injEq] at h; exact .inr (.inr h.symm)

/-- Everything the core step can do: a command's core step, or E_ILLEGAL (30_encoding.md R115, R116). -/
theorem coreStep_cases {s t : State} (h : coreStep s = .next t) :
    (∃ i, i.isCommand = true ∧ decodeCommand s.cmdLatch = .ok i ∧ exec i s = .next t) ∨
      ∃ info, t = s.raise .illegal info (opOf s.cmdLatch) := by
  unfold coreStep at h
  split at h
  · next i hi => exact .inl ⟨i, decodeCommand_isCommand hi, hi, h⟩
  · simp only [Host.Outcome.next.injEq] at h; exact .inr ⟨_, h.symm⟩

/-- Everything a step can do: nothing where the block idles, a core step, or an event from the host, each after the turn
has been taken. -/
theorem step_cases {s t : State} (h : step s = .next t) :
    t = s ∨ ∃ s', s' = { s with schedule := s'.schedule, draws := s'.draws } ∧ s.draws ≤ s'.draws ∧
      ((s.regs.status.busy = true ∧ coreStep s' = .next t) ∨
        ∃ e rest, s.inbox = e :: rest ∧ hostEvent e { s' with inbox := rest } = .next t) := by
  unfold step agentStep at h
  split at h
  · simp only [Host.Outcome.next.injEq] at h; exact .inl h.symm
  · next s' hs =>
    obtain ⟨h1, h2, h3, _⟩ := nextAgent_frame hs
    exact .inr ⟨s', h1, h2, .inl ⟨h3 rfl, h⟩⟩
  · next s' hs =>
    obtain ⟨h1, h2, _, h4⟩ := nextAgent_frame hs
    refine .inr ⟨s', h1, h2, .inr ?_⟩
    have hi : s'.inbox = s.inbox := by rw [h1]
    unfold hostStep at h
    rw [hi] at h
    split at h
    · next hnil => exact absurd hnil (h4 rfl)
    · next e rest he => exact ⟨e, rest, he, h⟩

end Sys2Proof.Machine
end

