-- ==== Sys2Proof/Laws/Memory.lean ====
section
/-! SUPPORT. Every operation on the memory keeps its canonical form, and the memory after reset has it. -/

namespace Sys2Proof.Machine

theorem memory_reset_wf : State.reset.mem.wf = true := rfl

/-- The canonical form of the memory, buffer by buffer. -/
theorem memory_wf_iff (m : Memory) :
    m.wf = true ↔ m.bitsIn.wf = true ∧ m.bitsOut.wf = true ∧ m.time.wf = true ∧ m.tx.wf = true ∧ m.rx.wf = true ∧
      m.filt.wf = true := by
  simp only [Memory.wf, Bool.and_eq_true, and_assoc]

theorem bitsIn_write_wf (m : Memory) (k : Nat) (v : Bool) (h : m.wf = true) :
    Memory.wf { m with bitsIn := m.bitsIn.write k v } = true := by
  rw [memory_wf_iff] at h ⊢
  exact ⟨buf_wf_write _ _ _ h.1, h.2⟩

theorem time_tx_fill_wf (m : Memory) (ts xs : List Word) (h : m.wf = true) :
    Memory.wf { m with time := m.time.fill ts, tx := m.tx.fill xs } = true := by
  rw [memory_wf_iff] at h ⊢
  exact ⟨h.1, h.2.1, buf_wf_fill _ _ h.2.2.1, buf_wf_fill _ _ h.2.2.2.1, h.2.2.2.2⟩

theorem rx_fill_wf (m : Memory) (xs : List Word) (h : m.wf = true) :
    Memory.wf { m with rx := m.rx.fill xs } = true := by
  rw [memory_wf_iff] at h ⊢
  exact ⟨h.1, h.2.1, h.2.2.1, h.2.2.2.1, buf_wf_fill _ _ h.2.2.2.2.1, h.2.2.2.2.2⟩

theorem filt_bitsOut_fill_wf (m : Memory) (ys : List Word) (bs : List Bool) (h : m.wf = true) :
    Memory.wf { m with filt := m.filt.fill ys, bitsOut := m.bitsOut.fill bs } = true := by
  rw [memory_wf_iff] at h ⊢
  exact ⟨h.1, buf_wf_fill _ _ h.2.1, h.2.2.1, h.2.2.2.1, h.2.2.2.2.1, buf_wf_fill _ _ h.2.2.2.2.2⟩

/-- A command's core step keeps the canonical form where its effect does. -/
theorem perform_wf (op : BitVec 8) (check : Option (ErrorKind × BitVec 8)) (effect s : State) (h : s.mem.wf = true)
    (he : effect.mem.wf = true) : (perform op check effect s).mem.wf = true := by
  rcases perform_cases op check effect s with ⟨code, info, _, hp⟩ | ⟨_, hp⟩
  · rw [hp]; exact h
  · rw [hp]; exact he

/-- A host write keeps the canonical form. -/
theorem hostWrite_wf (s : State) (t : Target) (v : Word) (h : s.mem.wf = true) : (s.hostWrite t v).mem.wf = true := by
  unfold State.hostWrite
  split
  · rcases hostWriteBusy_cases s t v with hc | hc | hc | hc <;> rw [hc] <;> exact h
  · unfold State.hostWriteIdle
    split
    · unfold State.accept; split <;> exact h
    · exact h
    · exact bitsIn_write_wf _ _ _ h
    · exact h
    · exact h

/-- A host read keeps the canonical form. -/
theorem readPort_wf (p : Params) (a : Addr) (s : State) (h : s.mem.wf = true) : (readPort p a s).mem.wf = true := by
  obtain ⟨v, n, hr, _⟩ := readPort_eq p a s
  rw [hr]; exact h

/-- Every instruction keeps the canonical form. -/
theorem exec_wf (i : Instr) (s t : State) (h : s.mem.wf = true) (he : exec i s = .next t) : t.mem.wf = true := by
  cases i <;> cases he
  · exact h
  · exact perform_wf _ _ _ _ h h
  · exact perform_wf _ _ _ _ h (time_tx_fill_wf _ _ _ h)
  · exact perform_wf _ _ _ _ h (rx_fill_wf _ _ h)
  · exact perform_wf _ _ _ _ h (filt_bitsOut_fill_wf _ _ _ h)
  · exact perform_wf _ _ _ _ h h
  · exact h
  · exact h
  · exact hostWrite_wf _ _ _ h
  · exact readPort_wf _ _ _ h

end Sys2Proof.Machine
end

