-- ==== Sys2Proof/Laws/PerInstr.lean ====
section
/-! SUPPORT. Statements about every instruction, one lemma per constructor. -/

namespace Sys2Proof.Laws.EncodesWellFormed

/-- The bits of an instruction are well formed at its level (30_encoding.md R111, R116). -/
def Statement (i : Instr) : Prop :=
  match encode i with
  | .command w => i.isCommand = true ∧ commandWellFormed w = true
  | .transaction t => i.isCommand = false ∧ transactionWellFormed t = true

theorem nop : Statement .nop := ⟨rfl, by decide⟩
theorem config : Statement .config := ⟨rfl, by decide⟩
theorem modulate : Statement .modulate := ⟨rfl, by decide⟩
theorem addNoise : Statement .addNoise := ⟨rfl, by decide⟩
theorem demodulate : Statement .demodulate := ⟨rfl, by decide⟩
theorem computeBer : Statement .computeBer := ⟨rfl, by decide⟩
theorem clearError : Statement .clearError := ⟨rfl, by decide⟩
theorem softReset : Statement .softReset := ⟨rfl, by decide⟩

theorem wr (addr : Addr) (data : Word) : Statement (.wr addr data) := by
  refine ⟨rfl, ?_⟩
  have h : dirOf (packTransaction true addr data) = true := by
    simp only [dirOf, packTransaction, BitVec.getLsbD_append]
    rfl
  simp [transactionWellFormed, h]

theorem rd (addr : Addr) : Statement (.rd addr) := by
  refine ⟨rfl, ?_⟩
  have h : dataOf (packTransaction false addr 0#64) = 0#64 := by
    apply BitVec.eq_of_getLsbD_eq
    intro i hi
    simp only [dataOf, packTransaction, BitVec.getLsbD_extractLsb', BitVec.getLsbD_append]
    simp [hi]
  simp [transactionWellFormed, h]

end Sys2Proof.Laws.EncodesWellFormed
end

