-- ==== Sys2Proof/Tests/Slice0.lean ====
section
/-! SUPPORT. The model's own tests: ill-formed encodings, words written out from the spec's encodings, one step of each
instruction against the spec's worked values, and for each statement with hypotheses a witness that meets them. -/

namespace Sys2Proof.Tests

open Sys2Proof Sys2Proof.Machine

/-! ## Ill-formed encodings (30_encoding.md R111, R116; 20_memory.md R87) -/

theorem test_undefined_opcode_ill_formed : commandWellFormed 0x0000000000000006#64 = false := by decide
theorem test_reserved_bits_ill_formed : commandWellFormed 0x0000000000000102#64 = false := by decide
theorem test_read_with_data_ill_formed : transactionWellFormed (packTransaction false 0x00003#20 1#64) = false := by decide
theorem test_partial_bridge_access_ill_formed : bridgeWellFormed 0x000008#23 4 = false := by decide
theorem test_unaligned_bridge_access_ill_formed : bridgeWellFormed 0x000004#23 8 = false := by decide
theorem test_worked_word_well_formed : commandWellFormed 0x0000000000000002#64 = true := by decide

/-! ## Words written out from the encodings (30_encoding.md R111 to R113, R116, R123) -/

theorem test_decode_nop : decodeCommand 0x0000000000000000#64 = .ok .nop := by rfl
theorem test_decode_config : decodeCommand 0x0000000000000001#64 = .ok .config := by rfl
theorem test_decode_modulate : decodeCommand 0x0000000000000002#64 = .ok .modulate := by rfl
theorem test_decode_add_noise : decodeCommand 0x0000000000000003#64 = .ok .addNoise := by rfl
theorem test_decode_demodulate : decodeCommand 0x0000000000000004#64 = .ok .demodulate := by rfl
theorem test_decode_compute_ber : decodeCommand 0x0000000000000005#64 = .ok .computeBer := by rfl
theorem test_decode_clear_error : decodeCommand 0x000000000000000E#64 = .ok .clearError := by rfl
theorem test_decode_soft_reset : decodeCommand 0x000000000000000F#64 = .ok .softReset := by rfl
theorem test_decode_undefined : decodeCommand 0x000000000000010D#64 = .error .undefinedOpcode := by rfl
theorem test_decode_reserved : decodeCommand 0x0000000000000102#64 = .error .reservedBits := by rfl

/-- `1 ++ 0x00016 ++ 0x3FE0000000000000`, the write of THRESHOLD of R123. -/
theorem test_decode_wr :
    decodeTransaction 0x1000163FE0000000000000#85 = some (.wr 0x00016#20 0x3FE0000000000000#64) := by decide

/-- `0 ++ 0x20003 ++ 0`, the read of BITS_OUT[3] of R123. -/
theorem test_decode_rd : decodeTransaction 0x0200030000000000000000#85 = some (.rd 0x20003#20) := by decide

theorem test_decode_rd_with_data : decodeTransaction 0x0200030000000000000001#85 = none := by decide
theorem test_table_command : decodeTableWord 64 0x0F = some .softReset := by decide
theorem test_table_transaction : decodeTableWord 88 0x1000020000000000000002 = some (.wr 0x00002#20 2#64) := by decide

/-! ## Binary64 (40_config.md R149, 44_ber_counter.md R236) -/

theorem test_r64_tstep : r64 (1 / 44000 : ℚ) = 0x3EF7D4CE4A19B16E#64 := by decide +kernel
theorem test_r64_wn : r64 (2 * 5000 / 44100 : ℚ) = 0x3FCD0662AF4F8742#64 := by decide +kernel
theorem test_r64_third : r64 (1 / 3 : ℚ) = 0x3FD5555555555555#64 := by decide +kernel
theorem test_r64_tenth : r64 (1 / 10 : ℚ) = 0x3FB999999999999A#64 := by decide +kernel
theorem test_gt_nan : (dec 0x7FF8000000000000#64).gt (.fin 0) = false := by decide +kernel
theorem test_gt_inf : (dec 0x7FF0000000000000#64).gt (dec 0x7FEFFFFFFFFFFFFF#64) = true := by decide +kernel

/-! ## One step of each instruction

`params` has the capacities of the reference instance (00_scope.md R7), a carrier that is exact at quarter cycles, where it
agrees with IDEAL (41_ask_modulator.md R167(d), (e)), and a filter whose output is 1.0 exactly where it has seen seven
inputs. -/

def quarterCarrier (a : Word) (p m : Nat) : Word :=
  if 4 * p = m then a else if 4 * p = 3 * m then a ^^^ 0x8000000000000000#64 else 0#64

def params : Params where
  nMaxPred := 63
  lMaxPred := 4095
  num := { carrier := quarterCarrier
           noisePower := fun _ _ => default
           noisy := fun s _ _ => s
           lpfCoeffs := fun _ _ => default
           lpf := fun _ _ xs => if xs.length = 7 then 0x3FF0000000000000#64 else 0#64 }
  gauss := fun _ _ => 0
  freePower := fun _ => 0
  freeWord := fun n => BitVec.ofNat 64 (100 + n)
  freeBit := fun _ => true
  freeAgent := fun _ => .core

/-- br = 1, fc = 1, fs = 4 before CONFIG, with the bits [0, 1], A = 2.0 and SNR_DB = +∞. -/
def bench : State :=
  { State.reset with
    regs := { Regs.reset with
      bitRate := 1#32, carrierFreq := 1#32, sampleRate := 4#32, nbits := 2#32
      amplitude := 0x4000000000000000#64, snrDb := 0x7FF0000000000000#64 }
    mem := { Memory.reset with bitsIn := [(0, false), (1, true)] } }

def benchConfigured : State := config params bench
def benchModulated : State := modulate params benchConfigured
def benchNoisy : State := addNoise params benchModulated
def benchDemodulated : State := demodulate params benchNoisy

/-- The words of a buffer. -/
def words (b : Buf Word) : List Word := b.map (·.2)

/-- spb = 4 and M = 4, so T_STEP = 0.25, WN = 0.5 and LPF_A0 = 1.0 (40_config.md R143, R144; 10_state.md R46). -/
theorem test_config :
    (benchConfigured.regs.spb, benchConfigured.regs.tStep, benchConfigured.regs.wn, benchConfigured.regs.lpfA[0],
      benchConfigured.regs.status.toWord, benchConfigured.regs.intStatus.toWord) =
    (4#32, 0x3FD0000000000000#64, 0x3FE0000000000000#64, 0x3FF0000000000000#64, 0x08#64, 0x1#64) := by decide +kernel

/-- br = 2, fc = 1, fs = 3: spb = 1, M = 2 and T_STEP = 0.5 rather than 1/3 (40_config.md R148). -/
theorem test_config_not_dividing :
    let s := config params { bench with regs := { bench.regs with bitRate := 2#32, sampleRate := 3#32 } }
    (s.regs.spb, s.regs.tStep) = (1#32, 0x3FE0000000000000#64) := by decide +kernel

/-- Bit 0's window is zeros; bit 1's is 0, A, 0, −A at phases 0, 1, 2, 3 of M = 4 (41_ask_modulator.md R161, R163). -/
theorem test_modulate :
    words benchModulated.mem.tx = [0#64, 0#64, 0#64, 0#64, 0#64, 0x4000000000000000#64, 0#64, 0xC000000000000000#64] ∧
    benchModulated.mem.time.read 5 = some 0x3FF4000000000000#64 ∧
    (benchModulated.regs.nsamples, benchModulated.regs.txN) = (8#32, 2#32) := by decide +kernel

/-- N = 65 exceeds N_MAX = 64: E_CAPACITY(1), and nothing else (41_ask_modulator.md R162). -/
theorem test_modulate_capacity :
    let s := modulate params { benchConfigured with regs := { benchConfigured.regs with nbits := 65#32 } }
    s.regs.errCode.toWord = 0x020104#64 ∧ s.mem = benchConfigured.mem := by decide +kernel

/-- Two samples of magnitude 2 in eight: P_s = 1.0; SNR_DB = +∞ skips the noise, and eight draws are counted
(42_awgn_channel.md R183, R185, R188). -/
theorem test_add_noise :
    (benchNoisy.regs.sigPower, benchNoisy.regs.noisePower, benchNoisy.regs.noiseCtr, benchNoisy.regs.rxN) =
      (0x3FF0000000000000#64, 0#64, 8#64, 2#32) ∧ words benchNoisy.mem.rx = words benchModulated.mem.tx := by
  decide +kernel

/-- An all-zero waveform with SNR_DB a NaN: no error, and zeros (42_awgn_channel.md R182). -/
theorem test_add_noise_zero_power :
    let s := addNoise params { benchModulated with
      regs := { benchModulated.regs with snrDb := 0x7FF8000000000000#64, nsamples := 4#32 } }
    s.regs.status.err = false ∧ words s.mem.rx = [0#64, 0#64, 0#64, 0#64] := by decide +kernel

/-- The sampling indices are 2 and 6 for spb = 4 (43_envelope_demod.md R205); bit 0's filter input is all zeros and bit 1
is sampled at the seventh output. -/
theorem test_demodulate :
    benchDemodulated.mem.bitsOut = [(0, false), (1, true)] ∧ benchDemodulated.regs.rxbN = 2#32 := by decide +kernel

/-- From a non-finite sample on, FILT is a draw (43_envelope_demod.md R209). -/
theorem test_demodulate_non_finite :
    words (demodulate params { benchNoisy with
      mem := { benchNoisy.mem with rx := benchNoisy.mem.rx.write 6 posInf } }).mem.filt =
      [0#64, 0#64, 0#64, 0#64, 0#64, 0#64, 100#64, 101#64] := by decide +kernel

/-- N = 3 and e = 1 give BER = R64(1/3) (44_ber_counter.md R236). -/
theorem test_compute_ber :
    let s := computeBer params { benchDemodulated with
      regs := { benchDemodulated.regs with nbits := 3#32, rxbN := 3#32 }
      mem := { benchDemodulated.mem with
        bitsIn := [(0, true), (1, false), (2, true)], bitsOut := [(0, true), (1, true), (2, true)] } }
    (s.regs.berErrors, s.regs.berBits, s.regs.ber) = (1#32, 3#32, 0x3FD5555555555555#64) := by decide +kernel

/-- N = 0 raises E_EMPTY(1) (44_ber_counter.md R234). -/
theorem test_compute_ber_empty :
    (computeBer params { benchDemodulated with
      regs := { benchDemodulated.regs with nbits := 0#32, rxbN := 0#32 } }).regs.errCode.toWord = 0x050106#64 := by
  decide +kernel

/-- `RUN NOP` from reset leaves INT_STATUS = 1 (45_system.md R240). -/
theorem test_nop :
    exec .nop State.reset = .next { State.reset with regs := { Regs.reset with intStatus := ⟨true, false⟩ } } := by rfl

/-- After E_PRECOND(5), with ERR_CODE = 0x050503, CLEAR_ERROR leaves INT_STATUS = 3 (45_system.md R242). -/
theorem test_clear_error :
    (State.reset.raise .precond 5#8 5#8).regs.errCode.toWord = 0x050503#64 ∧
    ∃ t, exec .clearError (State.reset.raise .precond 5#8 5#8) = .next t ∧
      (t.regs.status.toWord, t.regs.errCode.toWord, t.regs.intStatus.toWord) = (0#64, 0#64, 3#64) :=
  ⟨by decide, _, rfl, by decide⟩

/-- SOFT_RESET restores 1.0, 5.0 and 0.5 and keeps BITS_IN (45_system.md R244). -/
theorem test_soft_reset :
    ∃ t, exec .softReset bench = .next t ∧ t.mem.bitsIn.read 1 = some true ∧
      (t.regs.amplitude, t.regs.snrDb, t.regs.threshold, t.regs.intStatus.toWord) =
        (0x3FF0000000000000#64, 0x4014000000000000#64, 0x3FE0000000000000#64, 0#64) :=
  ⟨_, rfl, by decide, by decide⟩

/-- A second error keeps the first record and sets ERR_MULTI (60_exceptions.md R252). -/
theorem test_second_error :
    ((State.reset.record .config 1#8 1#8).record .halted 0#8 2#8).regs.errCode.toWord = 0x010102#64 ∧
    ((State.reset.record .config 1#8 1#8).record .halted 0#8 2#8).regs.status.toWord = 0x06#64 := by decide

/-- A write to CMD while ERR = 1 with OP = 0x02 is not accepted (30_encoding.md R114). -/
theorem test_wr_halted :
    let s := (State.reset.record .config 1#8 1#8).hostWrite (target params 0x002#20) 2#64
    (s.regs.status.busy, s.regs.status.errMulti, s.cmdLatch) = (false, true, 0#64) := by decide

/-- A read past the reference instance's N_MAX = 64 gives 0, and one below it of an unwritten bit gives a draw
(20_memory.md R84, R85; 10_state.md R63). -/
theorem test_rd_window :
    (readPort params 0x10040#20 bench).responses = [0#64] ∧ (readPort params 0x1003F#20 bench).responses = [1#64] ∧
    (readPort params 0x00001#20 bench).responses = [0x0000100000000040#64] := by decide

/-! ## The host's placement -/

theorem test_place_command : step (State.reset.withFetchWord 64 0x01) = .next
    ((State.reset.withFetchWord 64 0x01).raise .config 1#8 1#8) := by rfl

theorem test_place_transaction :
    ∃ t, step (State.reset.withFetchWord 88 0x1000133000000000000007) = .next t ∧ t.regs.nbits = 7#32 :=
  ⟨_, rfl, by decide⟩

/-! ## Witnesses: states and operands that meet the hypotheses of each statement

`chain` is the state after a whole chain at br = 3, fc = 1, fs = 3, so spb = 1, with one bit, within every N_MAX and
L_MAX. `busy` is a reset state with an accepted MODULATE. -/

def chainRegs : Regs :=
  { configRegs Config.params { Regs.reset with bitRate := 3#32, carrierFreq := 1#32, sampleRate := 3#32, nbits := 1#32 } with
    status := { Status.reset with cfgValid := true, txValid := true, rxValid := true, rxbValid := true }
    txN := 1#32, nsamples := 1#32, rxN := 1#32, rxbN := 1#32 }

def chain : State :=
  { State.reset with
    regs := chainRegs
    mem := ⟨[(0, true)], [(0, true)], [(0, 0#64)], [(0, 0x3FF0000000000000#64)], [(0, 0x3FF0000000000000#64)],
      [(0, 0x3FE0000000000000#64)]⟩ }

def busy : State := { (State.reset.setStatus { Status.reset with busy := true }) with cmdLatch := 2#64 }

/-- `chain` with a register file changed. -/
def chainWith (f : Regs → Regs) : State := { chain with regs := f chain.regs }

/-- `chain` with STATUS changed. -/
def chainFlags (f : Status) : State := chain.setStatus f

theorem witness_workedEncodings : 3 < params.nMax ∧ ({ busy with cmdLatch := 0x102#64 } : State).cmdLatch = 0x102#64 := by
  decide

theorem witness_illegalCommandWords :
    [0x06#64, 0x0D#64, 0x10#64, 0xFF#64, 0x106#64].all (fun w =>
      decide ((0x06 ≤ (opOf w).toNat ∧ (opOf w).toNat ≤ 0x0D) ∨ 0x10 ≤ (opOf w).toNat)) = true ∧
    [0x100#64, 0x105#64, 0x10E#64, 0x800000000000000F#64].all (fun w =>
      decide (((opOf w).toNat ≤ 0x05 ∨ (opOf w).toNat = 0x0E ∨ (opOf w).toNat = 0x0F) ∧ resOf w ≠ 0#56)) = true := by
  decide

theorem witness_stepRunsLatchedCommand :
    nextAgent Config.params busy = some (.core, busy) ∧ decodeCommand busy.cmdLatch = .ok .modulate ∧
      busy.regs.status.busy = true ∧ busy.inbox = [] := ⟨rfl, rfl, rfl, rfl⟩

theorem witness_stepRunsHostTransaction :
    let s : State := { State.reset with inbox := [.transaction (packTransaction false 3#20 0#64)] }
    nextAgent Config.params s = some (.host, s) ∧ decodeTransaction (packTransaction false 3#20 0#64) = some (.rd 3#20) ∧
      s.regs.status.busy = false ∧ s.inbox ≠ [] := ⟨rfl, rfl, rfl, by decide⟩

theorem witness_eitherAgentMayMoveFirst :
    let s : State := { busy with inbox := [.powerOnReset], schedule := [.core] }
    s.regs.status.busy = true ∧ s.inbox = .powerOnReset :: [] ∧ s.schedule = .core :: [] := ⟨rfl, rfl, rfl⟩

theorem witness_idleBlock : chain.ended := ⟨rfl, rfl⟩

theorem witness_acceptedCommandIsStepped :
    let s : State := { busy with inbox := [.transaction (packTransaction true 0x013#20 9#64)] }
    s.regs.status.busy = true ∧ ∀ e ∈ s.inbox, ∃ t i, e = .transaction t ∧ decodeTransaction t = some i :=
  ⟨rfl, fun _ h => ⟨_, _, List.mem_singleton.mp h, rfl⟩⟩

theorem witness_byteBridge :
    (0x7FFFF8#23).toNat % 8 = 0 ∧ (List.replicate 8 0xA5#8).length = 8 ∧ ((4 : Nat) ≠ 8 ∨ (0#23).toNat % 8 ≠ 0) ∧
      ((8 : Nat) ≠ 8 ∨ (0x000001#23).toNat % 8 ≠ 0) := by decide

/-- The reset registers before an accepting write to CMD, and with BUSY set after it. -/
theorem witness_commandsAfterReset :
    ({ busy with regs := Regs.reset } : State).regs = State.reset.regs ∧
      busy.regs = { State.reset.regs with status := { State.reset.regs.status with busy := true } } := ⟨rfl, rfl⟩

theorem witness_idleRegisterReads :
    State.reset.regs.status.busy = false ∧
      (0x03D#20, State.reset.regs.lpfA[5]) ∈ [(0x000#20, 0x41534B5F434F5245#64), (0x03D#20, State.reset.regs.lpfA[5])] :=
  ⟨rfl, by simp⟩

/-- The first and the last element of a window. -/
theorem witness_idleBufferReads :
    chain.regs.status.busy = false ∧ 0 < Window.bitsIn.capacity Config.params ∧
      (0x10000#20).toNat = Window.bitsIn.base + 0 ∧ chain.mem.element .bitsIn 0 = some 1#64 ∧
      State.reset.mem.element .bitsIn 0 = none ∧
      (BitVec.ofNat 20 (0x70000 + (Config.params.lMax - 1))).toNat = Window.filt.base + (Config.params.lMax - 1) ∧
      Config.params.lMax - 1 < Window.filt.capacity Config.params := by
  have h1 := lMax_pos Config.params
  have h2 := lMax_le Config.params
  refine ⟨rfl, nMax_pos _, rfl, rfl, rfl, ?_, ?_⟩
  · rw [BitVec.toNat_ofNat]; exact Nat.mod_eq_of_lt (by omega)
  · show _ < Config.params.lMax; omega

theorem witness_busyReads :
    busy.regs.status.busy = true ∧ (0x006#20).toNat = Reg.intEnable.addr ∧
      target Config.params 0x80000#20 = .reserved ∧ (0x002#20).toNat = Reg.cmd.addr ∧
      0 < Window.rx.capacity Config.params ∧ (0x60000#20).toNat = Window.rx.base + 0 := by
  refine ⟨rfl, rfl, ?_, rfl, lMax_pos _, rfl⟩
  have := lMax_le Config.params
  have := nMax_le Config.params
  rw [target_window _ _ (fun r => by have := reg_addr_lt r; simp only [BitVec.reduceToNat]; omega)]
  have hw : Window.all.find? (fun w => decide (w.base ≤ (0x80000#20).toNat ∧
      (0x80000#20).toNat - w.base < w.capacity Config.params)) = none := by
    rw [List.find?_eq_none]
    intro w _
    have := capacity_le Config.params w
    have hb : w.base ≤ 0x70000 := by cases w <;> decide
    simp only [BitVec.reduceToNat, decide_eq_true_eq, not_and, not_lt]
    omega
  rw [hw]

theorem witness_reservedAddresses :
    [0x007#20, 0x00F#20, 0x019#20, 0x02C#20, 0x036#20, 0x03E#20, 0x0FF#20].all (fun a =>
      Reg.all.all (fun r => r.addr != a.toNat)) = true ∧
    [0x100#20, 0xFFFF#20].all (fun a => decide (0x100 ≤ a.toNat ∧ a.toNat < 0x10000)) = true ∧
    [0x30000#20, 0x3FFFF#20].all (fun a => decide (0x30000 ≤ a.toNat ∧ a.toNat < 0x40000)) = true ∧
    [0x80000#20, 0xFFFFF#20].all (fun a => decide (0x80000 ≤ a.toNat)) = true := by decide +kernel

theorem witness_readOnlyTargets :
    (Reg.lpfA 5).access = .readOnly ∧ (0x03D#20).toNat = (Reg.lpfA 5).addr ∧ Window.bitsOut ≠ .bitsIn ∧
      0 < Window.bitsOut.capacity Config.params ∧ (0x20000#20).toNat = Window.bitsOut.base + 0 ∧
      State.reset.regs.status.busy = false := ⟨rfl, rfl, by decide, nMax_pos _, rfl, rfl⟩

theorem witness_idleWrites : chain.regs.status.busy = false := rfl

theorem witness_bitsInWrite :
    State.reset.regs.status.busy = false ∧ 0 < Config.params.nMax ∧ (0x10000#20).toNat = 0x10000 + 0 :=
  ⟨rfl, nMax_pos _, rfl⟩

theorem witness_addressMap :
    (0x7FFFF#20).toNat = Window.filt.base + 0xFFFF ∧ 0xFFFF < 0x10000 ∧ (0x02B#20).toNat = Reg.ber.addr := by decide

/-- One state for each clause of the frame: a buffer address while BUSY = 0, CMD while BUSY = 1, and a register. -/
theorem witness_writesComplete :
    chain.regs.status.busy = false ∧ busy.regs.status.busy = true ∧
      (∀ r, target Config.params 0x10000#20 ≠ .reg r) ∧ target Config.params 0x002#20 = .reg .cmd ∧
      (∀ i, target Config.params 0x013#20 ≠ .elem .bitsIn i) ∧ (0x013#20) ≠ 0x002#20 := by
  refine ⟨rfl, rfl, fun r h => ?_, rfl, fun i h => ?_, by decide⟩
  swap
  · cases (show Target.reg .nbits = .elem .bitsIn i from h)
  rw [target_window _ _ (fun r => by have := reg_addr_lt r; simp only [BitVec.reduceToNat]; omega)] at h
  split at h <;> cases h

theorem witness_commandAcceptance :
    (State.reset.regs.status.busy = false ∧ State.reset.regs.status.err = false) ∧
    let s := State.reset.record .config 1#8 1#8
    s.regs.status.busy = false ∧ s.regs.status.err = true ∧ opOf 1#64 ≠ 0x00#8 ∧ opOf 1#64 ≠ 0x0E#8 ∧ opOf 1#64 ≠ 0x0F#8 := by
  decide

theorem witness_busyWrites :
    busy.regs.status.busy = true ∧ target Config.params 0x000#20 = .reg .id ∧ Reg.id.access = .readOnly ∧
      target Config.params 0x017#20 = .reg .noiseSeed ∧ target Config.params 0x10000#20 = .elem .bitsIn 0 := by
  refine ⟨rfl, rfl, rfl, rfl, ?_⟩
  rw [target_window _ _ (fun r => by have := reg_addr_lt r; simp only [BitVec.reduceToNat]; omega)]
  have h := nMax_pos Config.params
  simp [Window.all, Window.base, Window.capacity, decide_eq_true (show 0 < Config.params.nMax from h)]

theorem witness_busyProtectsCommand :
    ∃ t, busy.regs.status.busy = true ∧
      hostEvent (.transaction (packTransaction true 0x013#20 9#64)) busy = .next t := ⟨_, rfl, rfl⟩

theorem witness_recordKeepsFirstError :
    State.reset.regs.status.err = false ∧ (State.reset.record .busy 0#8 0xFF#8).regs.status.err = true := ⟨rfl, rfl⟩

theorem witness_interruptLine :
    let s : State := { chain with regs := { chain.regs with intEnable := ⟨true, true⟩, intStatus := ⟨false, true⟩ } }
    s.regs.intEnable.doneIe = true ∧ s.regs.intEnable.errIe = true ∧ s.regs.intStatus.erri = true := ⟨rfl, rfl, rfl⟩

/-- `fs < br`, and `fs = 2 × fc` at the Nyquist bound (40_config.md R142, R148). -/
theorem witness_configChecks :
    State.reset.regs.bitRate = 0 ∧
    (let r := { Regs.reset with bitRate := 2#32, carrierFreq := 1#32, sampleRate := 1#32 }
     r.bitRate ≠ 0 ∧ r.carrierFreq ≠ 0 ∧ r.sampleRate ≠ 0 ∧ r.sampleRate.toNat < r.bitRate.toNat) ∧
    (let r := { Regs.reset with bitRate := 1000#32, carrierFreq := 22050#32, sampleRate := 44100#32 }
     r.bitRate ≠ 0 ∧ r.carrierFreq ≠ 0 ∧ r.sampleRate ≠ 0 ∧ r.bitRate.toNat ≤ r.sampleRate.toNat ∧
       r.sampleRate.toNat ≤ 2 * r.carrierFreq.toNat) := by decide

theorem witness_configDerives :
    let r := { Regs.reset with bitRate := 44100#32, carrierFreq := 22049#32, sampleRate := 44100#32 }
    r.bitRate ≠ 0 ∧ r.carrierFreq ≠ 0 ∧ r.bitRate.toNat ≤ r.sampleRate.toNat ∧
      2 * r.carrierFreq.toNat < r.sampleRate.toNat := by decide

theorem witness_timeBaseFits : 1 ≤ 1000 ∧ 1000 ≤ 44100 ∧ 44100 < 2 ^ 32 := by decide

theorem witness_modulateChecks :
    State.reset.regs.status.cfgValid = false ∧
    (chain.regs.status.cfgValid = true ∧ isFinite posInf = false ∧ isFinite chain.regs.amplitude = true) ∧
    Config.params.nMax < (chainWith (fun r => { r with nbits := 65537#32 })).regs.nbits.toNat ∧
    (let s := chainWith (fun r => { r with spb := 65537#32 })
     s.regs.nbits.toNat ≤ Config.params.nMax ∧ Config.params.lMax < s.regs.nbits.toNat * s.regs.spb.toNat) := by
  have h1 := nMax_le Config.params
  have h2 := lMax_le Config.params
  have h3 := nMax_pos Config.params
  refine ⟨rfl, ⟨rfl, by decide, by decide⟩, ?_, ?_, ?_⟩
  · show _ < 65537; omega
  · exact h3
  · show _ < 1 * 65537; omega

theorem witness_modulate :
    chain.regs.status.cfgValid = true ∧ isFinite chain.regs.amplitude = true ∧
      chain.regs.nbits.toNat ≤ Config.params.nMax ∧
      chain.regs.nbits.toNat * chain.regs.spb.toNat ≤ Config.params.lMax ∧
      0 < chain.regs.nbits.toNat ∧ 0 < chain.regs.spb.toNat :=
  ⟨rfl, by decide, nMax_pos _, lMax_pos _, by decide, by decide⟩

/-- br = fc = 2, fs = 8 after CONFIG, so spb = 4, with the bits [1, 1]: the windows 0 and 1 are one cycle apart. -/
def twoWindows : State :=
  config params { bench with
    regs := { bench.regs with bitRate := 2#32, carrierFreq := 2#32, sampleRate := 8#32 }
    mem := { bench.mem with bitsIn := [(0, true), (1, true)] } }

/-- Two different windows, at the last sample of each. -/
theorem witness_equalPhaseWindows :
    twoWindows.regs.status.cfgValid = true ∧ isFinite twoWindows.regs.amplitude = true ∧
      twoWindows.regs.nbits.toNat ≤ params.nMax ∧
      twoWindows.regs.nbits.toNat * twoWindows.regs.spb.toNat ≤ params.lMax ∧
      1 < twoWindows.regs.nbits.toNat ∧ 0 ≤ 1 ∧ 3 < twoWindows.regs.spb.toNat ∧
      twoWindows.mem.bitsIn.read 1 = some true ∧ twoWindows.mem.bitsIn.read 0 = some true ∧
      twoWindows.regs.carrierFreq.toNat * (1 - 0) % twoWindows.regs.bitRate.toNat = 0 := by decide +kernel

/-- A second state with other thresholds and buffers that agrees on what MODULATE reads. -/
theorem witness_modulateIsDeterministic :
    let s' : State := { chainWith (fun r => { r with threshold := 0#64 }) with mem := { Memory.reset with bitsIn := [(0, true)] } }
    chain.regs.nbits = s'.regs.nbits ∧ chain.regs.amplitude = s'.regs.amplitude ∧
      chain.regs.bitRate = s'.regs.bitRate ∧ chain.regs.carrierFreq = s'.regs.carrierFreq ∧
      chain.regs.spb = s'.regs.spb ∧
      (∀ i, i < chain.regs.nbits.toNat →
        (chain.mem.bitsIn.read i).isSome ∧ chain.mem.bitsIn.read i = s'.mem.bitsIn.read i) ∧
      s'.regs.status.cfgValid = true := by
  refine ⟨rfl, rfl, rfl, rfl, rfl, fun i hi => ?_, rfl⟩
  change i < 1 at hi
  interval_cases i
  exact ⟨rfl, rfl⟩

theorem witness_addNoiseChecks :
    State.reset.regs.status.cfgValid = false ∧
    (let f : Status := { Status.reset with cfgValid := true }
     (chainFlags f).regs.status.cfgValid = true ∧ (chainFlags f).regs.status.txValid = false) ∧
    (chain.regs.status.cfgValid = true ∧ chain.regs.status.txValid = true ∧ isNaN 0x7FF0000000000001#64 = true ∧
      ∃ k v, k < chain.regs.nsamples.toNat ∧ chain.mem.tx.read k = some v ∧ dec v ≠ .fin 0) :=
  ⟨rfl, ⟨rfl, rfl⟩, rfl, rfl, by decide, 0, 0x3FF0000000000000#64, by decide, rfl, by decide +kernel⟩

/-- −0.0 decodes to 0 (42_awgn_channel.md R182). -/
theorem witness_addNoiseZeroPower :
    let s : State := { chain with mem := { chain.mem with tx := [(0, 0x8000000000000000#64)] } }
    s.regs.status.cfgValid = true ∧ s.regs.status.txValid = true ∧
      ∀ k, k < s.regs.nsamples.toNat → ∃ v, s.mem.tx.read k = some v ∧ dec v = .fin 0 := by
  refine ⟨rfl, rfl, fun k hk => ?_⟩
  change k < 1 at hk
  interval_cases k
  exact ⟨_, rfl, by decide +kernel⟩

theorem witness_addNoise :
    chain.regs.status.cfgValid = true ∧ chain.regs.status.txValid = true ∧ isNaN chain.regs.snrDb = false ∧
      chain.regs.snrDb ≠ 0xFFF0000000000000#64 ∧ isNaN posInf = false ∧ posInf ≠ 0xFFF0000000000000#64 := by
  refine ⟨rfl, rfl, ?_⟩
  decide

theorem witness_skippedNoise :
    isFinite 0x8000000000000000#64 = true ∧ isFinite 0x7FEFFFFFFFFFFFFF#64 = true ∧ isFinite 0x0000000000000001#64 = true := by
  decide

/-- A seed write, a SOFT_RESET and the reset input each zero a NOISE_CTR of 5 (10_state.md R44; 45_system.md R244;
70_reset_and_hazards.md R280). -/
theorem witness_noiseCounterMoves :
    let s := chainWith (fun r => { r with noiseCtr := 5#64 })
    ∀ u ∈ [{ s with inbox := [.transaction (packTransaction true 0x017#20 9#64)] }, s.place (.command 0x0F#64),
        { s with inbox := [.powerOnReset] }],
      u.regs.noiseCtr = 5#64 ∧ ∃ t, step u = .next t ∧ t.regs.noiseCtr = 0#64 := by
  intro s u hu
  simp only [List.mem_cons, List.not_mem_nil, or_false] at hu
  rcases hu with rfl | rfl | rfl
  · exact ⟨rfl, _, rfl, rfl⟩
  · refine ⟨rfl, (s.place (.command 0x0F#64)).softReset, ?_, rfl⟩
    show coreStep (s.place (.command 0x0F#64)) = _
    unfold coreStep
    rw [show decodeCommand (s.place (.command 0x0F#64)).cmdLatch = .ok .softReset from test_decode_soft_reset]
    rfl
  · exact ⟨rfl, _, rfl, rfl⟩

theorem witness_demodulateChecks :
    State.reset.regs.status.cfgValid = false ∧
    (let f : Status := { Status.reset with cfgValid := true }
     (chainFlags f).regs.status.cfgValid = true ∧ (chainFlags f).regs.status.rxValid = false) ∧
    (chain.regs.status.rxValid = true ∧ (chainWith (fun r => { r with nbits := 2#32 })).regs.nbits ≠ chain.regs.rxN) ∧
    (chain.regs.nbits = chain.regs.rxN ∧ isFinite posInf = false) ∧
    (chain.regs.status.cfgValid = true ∧
      isFinite (chainWith (fun r => { r with threshold := 0xBFE0000000000000#64 })).regs.threshold = true) := by
  refine ⟨rfl, ⟨rfl, rfl⟩, ⟨rfl, ?_⟩, ⟨rfl, ?_⟩, rfl, ?_⟩
  · show (2#32) ≠ 1#32; decide
  · decide
  · decide

theorem witness_demodulate :
    chain.regs.status.cfgValid = true ∧ chain.regs.status.rxValid = true ∧ chain.regs.nbits = chain.regs.rxN ∧
      isFinite chain.regs.threshold = true ∧ 1 ≤ chain.regs.spb.toNat ∧ ∃ t, exec .demodulate chain = .next t :=
  ⟨rfl, rfl, rfl, by decide, by decide, _, rfl⟩

/-- A waveform whose sample 0 is the first non-finite one, and one with finite samples only. -/
theorem witness_demodulateDraws :
    let s : State := { chain with mem := { chain.mem with rx := [(0, posInf)] } }
    0 < s.regs.nbits.toNat * s.regs.spb.toNat ∧ isFinite (s.mem.rx.seen Config.freeWord s.draws 0) = false ∧
      (∀ m, m < 0 → isFinite (s.mem.rx.seen Config.freeWord s.draws m) = true) ∧
      isFinite (chain.mem.rx.seen Config.freeWord chain.draws 0) = true :=
  ⟨by decide, rfl, fun m h => absurd h (Nat.not_lt_zero m), rfl⟩

theorem witness_demodulationIsSignBlind :
    ([(0, 0xBFF0000000000000#64)] : Buf Word).map (fun c => (c.1, c.2 &&& 0x7FFFFFFFFFFFFFFF#64)) =
      chain.mem.rx.map (fun c => (c.1, c.2 &&& 0x7FFFFFFFFFFFFFFF#64)) := by decide

theorem witness_zeroInput :
    let s : State := { chain with mem := { chain.mem with rx := [(0, 0x8000000000000000#64)] } }
    ∀ n, n < s.regs.nbits.toNat * s.regs.spb.toNat → ∃ v, s.mem.rx.read n = some v ∧ dec v = .fin 0 := by
  intro s n hn
  change n < 1 at hn
  interval_cases n
  exact ⟨_, rfl, by decide +kernel⟩

theorem witness_samplingIndex : 1 ≤ 1 ∧ 0 < 1 ∧ 1 ≤ 44 ∧ 9 < 10 := by decide

theorem witness_computeBerChecks :
    State.reset.regs.status.cfgValid = false ∧
    (let f : Status := { Status.reset with cfgValid := true }
     (chainFlags f).regs.status.cfgValid = true ∧ (chainFlags f).regs.status.rxbValid = false) ∧
    (chain.regs.status.rxbValid = true ∧ (chainWith (fun r => { r with nbits := 2#32 })).regs.nbits ≠ chain.regs.rxbN) ∧
    (let s := chainWith (fun r => { r with nbits := 0#32, rxbN := 0#32 })
     s.regs.status.cfgValid = true ∧ s.regs.status.rxbValid = true ∧ s.regs.nbits = s.regs.rxbN ∧ s.regs.nbits = 0) := by
  refine ⟨rfl, ⟨rfl, rfl⟩, ⟨rfl, ?_⟩, rfl, rfl, rfl, rfl⟩
  show (2#32) ≠ 1#32; decide

theorem witness_computeBer :
    chain.regs.status.cfgValid = true ∧ chain.regs.status.rxbValid = true ∧ chain.regs.nbits = chain.regs.rxbN ∧
      chain.regs.nbits ≠ 0 := by
  refine ⟨rfl, rfl, rfl, ?_⟩
  show (1#32) ≠ 0; decide

theorem witness_berRatio : 1 ≤ 1 ∧ 1 < 2 ^ 32 ∧ 0 ≤ 1 ∧ 1 ≤ 4294967295 ∧ 4294967295 < 2 ^ 32 ∧ 4294967295 ≤ 4294967295 := by
  decide

theorem witness_rounding :
    (2 : ℝ) ^ 1024 - (2 : ℝ) ^ 970 ≤ (2 : ℝ) ^ 1024 - (2 : ℝ) ^ 970 ∧
    -((2 : ℝ) ^ 1024 - (2 : ℝ) ^ 970) ≤ -((2 : ℝ) ^ 1024 - (2 : ℝ) ^ 970) ∧
    |(1 / 3 : ℝ)| < (2 : ℝ) ^ 1024 - (2 : ℝ) ^ 970 ∧ isFinite 0#64 = true := by
  refine ⟨le_refl _, le_refl _, ?_, by decide⟩
  have h : ∀ a : ℝ, 0 < a → a ≤ a * 2 ^ 54 - a := fun a ha => by norm_num; linarith
  rw [abs_of_pos (by norm_num), show (2 : ℝ) ^ 1024 = 2 ^ 970 * 2 ^ 54 by rw [← pow_add]]
  exact lt_of_lt_of_le (lt_of_lt_of_le (by norm_num) (one_le_pow₀ (by norm_num))) (h (2 ^ 970) (by positivity))

theorem witness_idealCarrier :
    isFinite 0x3FF0000000000000#64 = true ∧ 0 < 44000 ∧ 2 * 22000 % 44000 = 0 ∧ 4 * 11000 = 44000 := by decide

theorem witness_idealDesign : 0 < 5000 ∧ 2 * 5000 < 44100 ∧ 0 < 1 ∧ 2 * 1 < 3 := by decide

/-- `chain` meets the invariant, whatever the parameters. -/
theorem witness_chain_invariant : chain.Inv Config.params where
  chained := ⟨fun h => absurd h (by decide), fun _ => rfl, fun _ => rfl, fun _ => rfl⟩
  errorSound := ⟨fun _ => ⟨rfl, rfl⟩, fun h => absurd h (by decide)⟩
  configSound := fun _ => ⟨rfl, rfl, rfl, rfl, rfl, rfl⟩
  lengthsSound := ⟨fun _ => ⟨nMax_pos _, rfl, lMax_pos _⟩, fun _ => rfl, fun _ => rfl⟩
  resultSound := fun h => absurd h (by decide)
  written := by
    refine ⟨fun _ k hk => ?_, fun _ k hk => ?_, fun _ => ⟨fun k hk => ?_, fun k hk => ?_⟩⟩ <;> change k < 1 at hk <;>
      interval_cases k
    · exact ⟨rfl, rfl⟩
    all_goals rfl
  memWf := by decide
  memWithin := by
    have h1 := nMax_pos Config.params
    have h2 := lMax_pos Config.params
    simp only [Memory.within, chain, Buf.within, List.all_cons, List.all_nil, Bool.and_true, Bool.and_eq_true,
      decide_eq_true_eq]
    omega

theorem witness_stepKeepsInvariant : ∃ t, chain.Inv Config.params ∧ step chain = .next t :=
  ⟨_, witness_chain_invariant, rfl⟩

theorem witness_demodulateStaysInBounds :
    chain.Inv Config.params ∧ chain.regs.status.rxValid = true ∧ chain.regs.nbits = chain.regs.rxN ∧
      isFinite chain.regs.threshold = true ∧ ∀ n v, chain.mem.rx.read n = some v → isFinite v = true := by
  refine ⟨witness_chain_invariant, rfl, rfl, by decide, fun n v h => ?_⟩
  simp only [chain, Buf.read] at h
  split at h
  · cases h; decide
  · cases h

end Sys2Proof.Tests
end

section
/-! PROOFS. R64 (spec/00_scope.md R11): one rounding for rationals and reals, and the reals' rounding is to nearest even.
A nonzero v below the overflow bound is `± scaled v × 2 ^ ulpExp v`; R64 rounds the significand `scaled v` to an integer,
and the finite words near v are integers on that scale. -/

namespace Sys2Proof.Machine

/-! ### The rounding of a rational is that of the real it is -/

theorem roundEven_ratCast (x : ℚ) : roundEven (x : ℝ) = roundEven x := by
  have hlt : ((x : ℝ) - ⌊x⌋ < 1 / 2) ↔ (x - ⌊x⌋ < 1 / 2) := by
    rw [← Rat.cast_lt (K := ℝ)]; push_cast; rfl
  have hgt : ((1 : ℝ) / 2 < (x : ℝ) - ⌊x⌋) ↔ (1 / 2 < x - ⌊x⌋) := by
    rw [← Rat.cast_lt (K := ℝ)]; push_cast; rfl
  simp only [roundEven, Rat.floor_cast, hlt, hgt]

theorem intLog_ratCast (b : ℕ) (q : ℚ) : Int.log b (q : ℝ) = Int.log b q := by
  have hone : (1 : ℝ) ≤ (q : ℝ) ↔ 1 ≤ q := by exact_mod_cast Iff.rfl
  have hfloor : ⌊(q : ℝ)⌋₊ = ⌊q⌋₊ := by rw [← Int.floor_toNat, Rat.floor_cast, Int.floor_toNat]
  have hceil : ⌈(q : ℝ)⁻¹⌉₊ = ⌈q⁻¹⌉₊ := by
    rw [← Rat.cast_inv, ← Int.ceil_toNat, Rat.ceil_cast, Int.ceil_toNat]
  simp only [Int.log, hone, hfloor, hceil]

theorem ulpExp_ratCast (q : ℚ) : ulpExp (q : ℝ) = ulpExp q := by
  rw [ulpExp, ulpExp, ← Rat.cast_abs, intLog_ratCast]

theorem r64_ratCast (q : ℚ) : r64 (q : ℝ) = r64 q := by
  have hzero : (q : ℝ) = 0 ↔ q = 0 := Rat.cast_eq_zero
  have hneg : (q : ℝ) < 0 ↔ q < 0 := Rat.cast_lt_zero
  have hover : (2 : ℝ) ^ 1024 - (2 : ℝ) ^ 970 ≤ |(q : ℝ)| ↔ (2 : ℚ) ^ 1024 - (2 : ℚ) ^ 970 ≤ |q| := by
    rw [← Rat.cast_le (K := ℝ)]; push_cast; rfl
  have hround : roundEven (|(q : ℝ)| / (2 : ℝ) ^ ulpExp q) = roundEven (|q| / (2 : ℚ) ^ ulpExp q) := by
    rw [← roundEven_ratCast]; push_cast; rfl
  simp only [r64, hzero, hneg, hover, ulpExp_ratCast, hround]

/-- Settles O53: each part of `r64` commutes with the cast. -/
theorem roundingAgreesOnRationals : Obligations.RoundingAgreesOnRationals := r64_ratCast

/-! ### Rounding to the nearest integer, ties to even -/

theorem roundEven_spec (x : ℝ) :
    |x - roundEven x| ≤ 1 / 2 ∧ (|x - roundEven x| = 1 / 2 → Even (roundEven x)) := by
  have hlo := Int.floor_le x
  have hhi := Int.lt_floor_add_one x
  simp only [roundEven]
  split_ifs with hlt hgt heven
  · rw [abs_of_nonneg (by linarith)]
    exact ⟨hlt.le, fun h => absurd h hlt.ne⟩
  · push_cast
    rw [abs_of_nonpos (by linarith)]
    exact ⟨by linarith, fun h => by linarith⟩
  · rw [abs_of_nonneg (by linarith)]
    exact ⟨by linarith, fun _ => Int.even_iff.2 heven⟩
  · push_cast
    rw [abs_of_nonpos (by linarith)]
    exact ⟨by linarith, fun _ => Int.even_add_one.2 (mt Int.even_iff.1 heven)⟩

theorem lt_roundEven_of_add_half_lt {x : ℝ} {n : ℤ} (h : (n : ℝ) + 1 / 2 < x) : n < roundEven x := by
  have := (abs_le.1 (roundEven_spec x).1).2
  exact_mod_cast (by linarith : (n : ℝ) < roundEven x)

theorem roundEven_lt_of_lt_sub_half {x : ℝ} {n : ℤ} (h : x < (n : ℝ) - 1 / 2) : roundEven x < n := by
  have := (abs_le.1 (roundEven_spec x).1).1
  exact_mod_cast (by linarith : (roundEven x : ℝ) < n)

theorem le_roundEven {x : ℝ} {n : ℤ} (h : (n : ℝ) ≤ x) : n ≤ roundEven x :=
  Int.sub_one_lt_iff.1 (lt_roundEven_of_add_half_lt (by push_cast; linarith))

theorem roundEven_le {x : ℝ} {n : ℤ} (h : x ≤ n) : roundEven x ≤ n :=
  Int.lt_add_one_iff.1 (roundEven_lt_of_lt_sub_half (by push_cast; linarith))

theorem half_le_abs_sub_of_ne_roundEven {x : ℝ} {n : ℤ} (hn : n ≠ roundEven x) : 1 / 2 ≤ |x - n| := by
  have hhalf := (roundEven_spec x).1
  have hapart : (1 : ℝ) ≤ |(n : ℝ) - roundEven x| := by exact_mod_cast Int.one_le_abs (sub_ne_zero.2 hn)
  have htri := abs_sub_le (n : ℝ) x (roundEven x)
  rw [abs_sub_comm (n : ℝ) x] at htri
  linarith

theorem abs_sub_roundEven_le (x : ℝ) (n : ℤ) : |x - roundEven x| ≤ |x - n| := by
  rcases eq_or_ne n (roundEven x) with rfl | hn
  · rfl
  · exact (roundEven_spec x).1.trans (half_le_abs_sub_of_ne_roundEven hn)

theorem even_roundEven_of_tie {x : ℝ} {n : ℤ} (hn : n ≠ roundEven x) (h : |x - roundEven x| = |x - n|) :
    Even (roundEven x) :=
  (roundEven_spec x).2 ((roundEven_spec x).1.antisymm (h ▸ half_le_abs_sub_of_ne_roundEven hn))

/-! ### The fields and the value of a word -/

/-- The word with sign bit s and the magnitude bits `[62:0]`, the form in which `r64` gives a finite word. -/
def signedWord (s : Bool) (bits : ℕ) : Word := BitVec.ofNat 64 ((if s then 2 ^ 63 else 0) + bits)

section Fields

variable {s : Bool} {bits : ℕ}

theorem signedWord_toNat (h : bits < 2 ^ 63) :
    (signedWord s bits).toNat = (if s then 2 ^ 63 else 0) + bits := by
  rw [signedWord, BitVec.toNat_ofNat]
  exact Nat.mod_eq_of_lt (by split <;> omega)

theorem expField_signedWord (h : bits < 2 ^ 63) : expField (signedWord s bits) = bits / 2 ^ 52 := by
  rw [expField, BitVec.extractLsb'_toNat, signedWord_toNat h, Nat.shiftRight_eq_div_pow]
  split <;> omega

theorem fracField_signedWord (h : bits < 2 ^ 63) : fracField (signedWord s bits) = bits % 2 ^ 52 := by
  rw [fracField, BitVec.extractLsb'_toNat, signedWord_toNat h, Nat.shiftRight_zero]
  split <;> omega

theorem signOf_signedWord (h : bits < 2 ^ 63) : signOf (signedWord s bits) = if s then -1 else 1 := by
  have hbit : (signedWord s bits).getLsbD 63 = s := by
    rw [BitVec.getLsbD, signedWord_toNat h, Nat.testBit_eq_decide_div_mod_eq]
    cases s
    · simp; omega
    · simp; omega
  rw [signOf, hbit]

theorem getLsbD_zero_signedWord (h : bits < 2 ^ 63) : (signedWord s bits).getLsbD 0 = decide (bits % 2 = 1) := by
  rw [BitVec.getLsbD, signedWord_toNat h, Nat.testBit_zero]
  congr 1
  split
  · simp; omega
  · simp

end Fields

theorem isFinite_iff (w : Word) : isFinite w = true ↔ expField w < 2047 := by
  have : expField w < 2 ^ 11 := BitVec.isLt _
  simp only [isFinite, bne_iff_ne]; omega

theorem abs_signOf (w : Word) : |signOf w| = 1 := by
  rw [signOf]; split <;> simp

theorem decQ_of_expField_eq_zero {w : Word} (h : expField w = 0) :
    decQ w = signOf w * (fracField w * 2 ^ (-1074 : ℤ)) := by
  simp only [decQ, dec, h, if_true, F64.toRat, zpow_neg]
  rw [mul_div_assoc]; rfl

theorem decQ_of_expField_pos {w : Word} (h0 : 0 < expField w) (h : expField w < 2047) :
    decQ w = signOf w * ((2 ^ 52 + fracField w) * 2 ^ ((expField w : ℤ) - 1075)) := by
  simp only [decQ, dec, h0.ne', h, if_true, if_false, F64.toRat, mul_assoc]

theorem decQ_posZero : decQ posZero = 0 := by
  rw [decQ_of_expField_eq_zero (by decide), show fracField posZero = 0 by decide]
  simp

/-- The value of the magnitude bits that `magnitudeBits` forms; at m = 2^53 the carry gives the next binade's first word. -/
theorem decQ_signedWord {s : Bool} {k m : ℕ} (hm : m ≤ 2 ^ 53) (hnorm : k = 0 ∨ 2 ^ 52 ≤ m)
    (hfin : k * 2 ^ 52 + m < 2047 * 2 ^ 52) :
    decQ (signedWord s (k * 2 ^ 52 + m)) = (if s then -1 else 1) * (m * 2 ^ ((k : ℤ) - 1074)) := by
  have hbits : k * 2 ^ 52 + m < 2 ^ 63 := by omega
  have hexp := expField_signedWord (s := s) hbits
  have hfrac := fracField_signedWord (s := s) hbits
  rw [← signOf_signedWord hbits]
  rcases lt_or_ge m (2 ^ 52) with hsub | hnormal
  · obtain rfl : k = 0 := by omega
    rw [zero_mul, zero_add] at *
    rw [decQ_of_expField_eq_zero (hexp.trans (Nat.div_eq_of_lt hsub)), hfrac, Nat.mod_eq_of_lt hsub]
    rfl
  rcases hm.lt_or_eq with hlt | rfl
  · have he : (k * 2 ^ 52 + m) / 2 ^ 52 = k + 1 := by omega
    obtain ⟨f, rfl⟩ := Nat.exists_eq_add_of_le hnormal
    have hf : (k * 2 ^ 52 + (2 ^ 52 + f)) % 2 ^ 52 = f := by omega
    rw [decQ_of_expField_pos (by omega) (by omega), hexp, hfrac, he, hf]
    push_cast
    ring_nf
  · have he : (k * 2 ^ 52 + 2 ^ 53) / 2 ^ 52 = k + 2 := by omega
    have hf : (k * 2 ^ 52 + 2 ^ 53) % 2 ^ 52 = 0 := by omega
    have hcarry : ((k + 2 : ℕ) : ℤ) - 1075 = 1 + ((k : ℤ) - 1074) := by omega
    rw [decQ_of_expField_pos (by omega) (by omega), hexp, hfrac, he, hf, hcarry, zpow_one_add₀ two_ne_zero]
    push_cast
    ring

theorem abs_decQ_eq_mantissa {w : Word} (hw : isFinite w = true) :
    ∃ m k : ℕ, m < 2 ^ 53 ∧ k ≤ 2045 ∧ (|decQ w| : ℝ) = m * 2 ^ ((k : ℤ) - 1074) := by
  suffices h : ∃ m k : ℕ, m < 2 ^ 53 ∧ k ≤ 2045 ∧ decQ w = signOf w * (m * 2 ^ ((k : ℤ) - 1074)) by
    obtain ⟨m, k, hm, hk, hdec⟩ := h
    refine ⟨m, k, hm, hk, ?_⟩
    rw [← Rat.cast_abs, hdec, abs_mul, abs_signOf, one_mul, abs_of_nonneg (by positivity)]
    push_cast
    rfl
  rw [isFinite_iff] at hw
  have hfrac : fracField w < 2 ^ 52 := BitVec.isLt _
  rcases (expField w).eq_zero_or_pos with h0 | hpos
  · exact ⟨fracField w, 0, by omega, by omega, by rw [decQ_of_expField_eq_zero h0]; simp⟩
  · refine ⟨2 ^ 52 + fracField w, expField w - 1, by omega, by omega, ?_⟩
    have he : (expField w : ℤ) - 1075 = ((expField w - 1 : ℕ) : ℤ) - 1074 := by omega
    rw [decQ_of_expField_pos hpos hw, he]
    push_cast
    rfl

/-! ### The overflow bound -/

theorem overflowBound_eq : (2 : ℝ) ^ 1024 - 2 ^ 970 = (2 ^ 53 - 1 / 2) * 2 ^ (971 : ℤ) := by
  rw [zpow_ofNat, show (2 : ℝ) ^ 1024 = 2 ^ 53 * 2 ^ 971 from pow_add 2 53 971,
    show (2 : ℝ) ^ 971 = 2 ^ 970 * 2 from pow_succ 2 970]
  generalize (2 : ℝ) ^ 970 = a
  ring

theorem overflowBound_pos : (0 : ℝ) < 2 ^ 1024 - 2 ^ 970 :=
  sub_pos.2 (pow_lt_pow_right₀ one_lt_two (by norm_num))

theorem abs_decQ_lt {w : Word} (hw : isFinite w = true) : |(decQ w : ℝ)| < 2 ^ 1024 - 2 ^ 970 := by
  obtain ⟨m, k, hm, hk, habs⟩ := abs_decQ_eq_mantissa hw
  have hm' : (m : ℝ) ≤ 2 ^ 53 - 1 := by
    rw [le_sub_iff_add_le]; exact_mod_cast hm
  have hk' : (k : ℤ) - 1074 ≤ 971 := by omega
  rw [habs, overflowBound_eq]
  calc (m : ℝ) * 2 ^ ((k : ℤ) - 1074)
    _ ≤ (2 ^ 53 - 1) * 2 ^ (971 : ℤ) := by gcongr; norm_num
    _ < (2 ^ 53 - 1 / 2) * 2 ^ (971 : ℤ) := mul_lt_mul_of_pos_right (by norm_num) (by positivity)

theorem r64_of_overflow {v : ℝ} (h : 2 ^ 1024 - 2 ^ 970 ≤ |v|) : r64 v = if v < 0 then negInf else posInf := by
  rw [r64, if_neg (abs_pos.1 (overflowBound_pos.trans_le h)), if_pos h]

/-! ### The significand that R64 rounds -/

/-- The significand of v: v's magnitude in units of its last place. -/
noncomputable def scaled (v : ℝ) : ℝ := |v| / 2 ^ ulpExp v

theorem scaled_mul (v : ℝ) : scaled v * 2 ^ ulpExp v = |v| := div_mul_cancel₀ _ (by positivity)

theorem scaled_nonneg (v : ℝ) : 0 ≤ scaled v := by rw [scaled]; positivity

theorem scaled_lt (v : ℝ) : scaled v < 2 ^ 53 := by
  have hlog : |v| < 2 ^ (Int.log 2 |v| + 1) := by exact_mod_cast Int.lt_zpow_succ_log_self one_lt_two |v|
  have hexp : Int.log 2 |v| + 1 ≤ 53 + ulpExp v := by
    have : Int.log 2 |v| - 52 ≤ ulpExp v := le_max_left _ _
    omega
  rw [scaled, div_lt_iff₀ (by positivity)]
  calc |v| < 2 ^ (Int.log 2 |v| + 1) := hlog
    _ ≤ (2 : ℝ) ^ (53 + ulpExp v) := zpow_le_zpow_right₀ one_le_two hexp
    _ = 2 ^ 53 * 2 ^ ulpExp v := by rw [zpow_add₀ two_ne_zero]; norm_cast

theorem le_scaled {v : ℝ} (h0 : v ≠ 0) (h : ulpExp v ≠ -1074) : 2 ^ 52 ≤ scaled v := by
  have hlog : (2 : ℝ) ^ Int.log 2 |v| ≤ |v| := by exact_mod_cast Int.zpow_log_le_self one_lt_two (abs_pos.2 h0)
  have hexp : Int.log 2 |v| = 52 + ulpExp v := by
    rw [ulpExp] at h ⊢; omega
  rw [scaled, le_div_iff₀ (by positivity)]
  calc (2 : ℝ) ^ 52 * 2 ^ ulpExp v = 2 ^ (52 + ulpExp v) := by rw [zpow_add₀ two_ne_zero]; norm_cast
    _ ≤ |v| := hexp ▸ hlog

theorem ulpExp_le {v : ℝ} (h0 : v ≠ 0) (hv : |v| < 2 ^ 1024) : ulpExp v ≤ 971 := by
  have hlog : Int.log 2 |v| < 1024 :=
    (Int.lt_zpow_iff_log_lt one_lt_two (abs_pos.2 h0)).1 (by rwa [Nat.cast_ofNat, zpow_ofNat])
  rw [ulpExp]; omega

theorem scaled_lt_of_ulpExp_eq {v : ℝ} (hv : |v| < 2 ^ 1024 - 2 ^ 970) (h : ulpExp v = 971) :
    scaled v < 2 ^ 53 - 1 / 2 := by
  rw [scaled, h, div_lt_iff₀ (by positivity)]
  exact hv.trans_eq overflowBound_eq

/-! ### The word that R64 gives below the overflow bound -/

/-- The magnitude of R64(v): v's significand rounded, in units of its last place. -/
noncomputable def nearMagnitude (v : ℝ) : ℝ := roundEven (scaled v) * 2 ^ ulpExp v

section BelowOverflow

variable {v : ℝ} (h0 : v ≠ 0) (hv : |v| < 2 ^ 1024 - 2 ^ 970)
include h0 hv

theorem r64_eq_signedWord :
    ∃ k m : ℕ, ulpExp v = (k : ℤ) - 1074 ∧ roundEven (scaled v) = m ∧ m ≤ 2 ^ 53 ∧ (k = 0 ∨ 2 ^ 52 ≤ m) ∧
      k * 2 ^ 52 + m < 2047 * 2 ^ 52 ∧ r64 v = signedWord (decide (v < 0)) (k * 2 ^ 52 + m) := by
  have hexp_ge : -1074 ≤ ulpExp v := le_max_right _ _
  have hexp_le : ulpExp v ≤ 971 := ulpExp_le h0 (hv.trans (sub_lt_self _ (by positivity)))
  have hm0 : 0 ≤ roundEven (scaled v) := le_roundEven (by exact_mod_cast scaled_nonneg v)
  have hm : roundEven (scaled v) ≤ (2 ^ 53 : ℕ) := roundEven_le (by exact_mod_cast (scaled_lt v).le)
  have hnorm : ulpExp v = -1074 ∨ (2 ^ 52 : ℕ) ≤ roundEven (scaled v) :=
    or_iff_not_imp_left.2 fun h => le_roundEven (by exact_mod_cast le_scaled h0 h)
  have htop : ulpExp v = 971 → roundEven (scaled v) < (2 ^ 53 : ℕ) := fun h =>
    roundEven_lt_of_lt_sub_half (by exact_mod_cast scaled_lt_of_ulpExp_eq hv h)
  have hword : r64 v = signedWord (decide (v < 0)) (magnitudeBits (ulpExp v) (roundEven (scaled v))) := by
    simp only [r64, h0, hv.not_ge, if_false, signedWord, scaled, decide_eq_true_eq]
  obtain ⟨k, hk⟩ := Int.eq_ofNat_of_zero_le (neg_le_iff_add_nonneg.1 hexp_ge)
  obtain ⟨m, hm'⟩ := Int.eq_ofNat_of_zero_le hm0
  refine ⟨k, m, by omega, hm', by omega, by omega, by omega, ?_⟩
  rw [hword, magnitudeBits, hk, hm']
  rfl

theorem decQ_r64 : (decQ (r64 v) : ℝ) = if v < 0 then -nearMagnitude v else nearMagnitude v := by
  obtain ⟨k, m, hk, hm, hle, hnorm, hfin, hword⟩ := r64_eq_signedWord h0 hv
  rw [hword, decQ_signedWord hle hnorm hfin, nearMagnitude, hk, hm]
  split_ifs <;> simp_all

theorem abs_decQ_r64 : |(decQ (r64 v) : ℝ)| = |nearMagnitude v| := by
  rw [decQ_r64 h0 hv]
  split
  · rw [abs_neg]
  · rfl

theorem getLsbD_zero_r64 (heven : Even (roundEven (scaled v))) : (r64 v).getLsbD 0 = false := by
  obtain ⟨k, m, -, hm, hle, -, hfin, hword⟩ := r64_eq_signedWord h0 hv
  rw [hm, Int.even_coe_nat, Nat.even_iff] at heven
  rw [hword, getLsbD_zero_signedWord (by omega), decide_eq_false_iff_not]
  omega

end BelowOverflow

theorem isFinite_r64 {v : ℝ} (hv : |v| < 2 ^ 1024 - 2 ^ 970) : isFinite (r64 v) = true := by
  rcases eq_or_ne v 0 with rfl | h0
  · rw [r64_zero]; decide
  obtain ⟨k, m, -, -, -, -, hfin, hword⟩ := r64_eq_signedWord h0 hv
  rw [hword, isFinite_iff, expField_signedWord (by omega)]
  omega

/-! ### No finite word is nearer -/

/-- y is a multiple of the unit of v's last place, or lies below v's binade, where the words are finer. -/
def InGrid (v y : ℝ) : Prop :=
  (∃ n : ℤ, y = n * 2 ^ ulpExp v) ∨ (|y| < 2 ^ 52 * 2 ^ ulpExp v ∧ 2 ^ 52 ≤ scaled v)

theorem InGrid.neg {v y : ℝ} : InGrid v y → InGrid v (-y)
  | .inl ⟨n, hn⟩ => .inl ⟨-n, by rw [hn]; push_cast; ring⟩
  | .inr h => .inr (by rwa [abs_neg])

theorem inGrid_abs {v y : ℝ} : InGrid v |y| ↔ InGrid v y := by
  rcases abs_choice y with h | h <;> rw [h]
  exact ⟨fun hy => neg_neg y ▸ hy.neg, InGrid.neg⟩

theorem inGrid_decQ {v : ℝ} (h0 : v ≠ 0) {w : Word} (hw : isFinite w = true) : InGrid v (decQ w) := by
  obtain ⟨m, k, hm, -, habs⟩ := abs_decQ_eq_mantissa hw
  rcases le_or_gt (ulpExp v) ((k : ℤ) - 1074) with hcoarse | hfine
  · obtain ⟨j, hj⟩ := Int.eq_ofNat_of_zero_le (sub_nonneg.2 hcoarse)
    have hmul : (|decQ w| : ℝ) = ((m * 2 ^ j : ℤ) : ℝ) * 2 ^ ulpExp v := by
      rw [habs, show (k : ℤ) - 1074 = j + ulpExp v by omega, zpow_add₀ two_ne_zero]
      push_cast
      rw [zpow_natCast, mul_assoc]
    exact inGrid_abs.1 (.inl ⟨_, hmul⟩)
  · have hne : ulpExp v ≠ -1074 := by omega
    have hk : (k : ℤ) - 1074 ≤ ulpExp v - 1 := by omega
    have hm' : (m : ℝ) < 2 ^ 53 := by exact_mod_cast hm
    refine .inr ⟨?_, le_scaled h0 hne⟩
    calc (|decQ w| : ℝ) = m * 2 ^ ((k : ℤ) - 1074) := habs
      _ < 2 ^ 53 * 2 ^ ((k : ℤ) - 1074) := by gcongr
      _ ≤ 2 ^ 53 * 2 ^ (ulpExp v - 1) := by gcongr; norm_num
      _ = 2 ^ 52 * 2 ^ ulpExp v := by rw [zpow_sub_one₀ two_ne_zero]; ring

theorem nearMagnitude_nearest {v y : ℝ} (hy : InGrid v y) :
    dist |v| (nearMagnitude v) ≤ dist |v| y ∧
      (dist |v| (nearMagnitude v) = dist |v| y → y ≠ nearMagnitude v → Even (roundEven (scaled v))) := by
  have hu : (0 : ℝ) < 2 ^ ulpExp v := by positivity
  have hdist (n : ℤ) : dist |v| (n * 2 ^ ulpExp v) = |scaled v - n| * 2 ^ ulpExp v := by
    rw [← scaled_mul v, Real.dist_eq, ← sub_mul, abs_mul, abs_of_pos hu]
  rw [nearMagnitude, hdist]
  rcases hy with ⟨n, rfl⟩ | ⟨hsmall, hnormal⟩
  · rw [hdist]
    refine ⟨mul_le_mul_of_nonneg_right (abs_sub_roundEven_le _ n) hu.le, fun h hne => ?_⟩
    exact even_roundEven_of_tie (fun hn => hne (by rw [hn])) (mul_right_cancel₀ hu.ne' h)
  · have hlow : |scaled v - roundEven (scaled v)| ≤ scaled v - 2 ^ 52 := by
      rw [← abs_of_nonneg (sub_nonneg.2 hnormal)]
      exact_mod_cast abs_sub_roundEven_le (scaled v) (2 ^ 52 : ℕ)
    have hlt : |scaled v - roundEven (scaled v)| * 2 ^ ulpExp v < dist |v| y :=
      calc |scaled v - roundEven (scaled v)| * 2 ^ ulpExp v
        _ ≤ (scaled v - 2 ^ 52) * 2 ^ ulpExp v := by gcongr
        _ = |v| - 2 ^ 52 * 2 ^ ulpExp v := by rw [sub_mul, scaled_mul]
        _ < |v| - |y| := by linarith
        _ ≤ dist |v| y := by rw [Real.dist_eq]; linarith [le_abs_self (|v| - y), le_abs_self y]
    exact ⟨hlt.le, fun h => absurd h hlt.ne⟩

theorem r64_nearest {v : ℝ} (hv : |v| < 2 ^ 1024 - 2 ^ 970) {w : Word} (hw : isFinite w = true) :
    |(decQ (r64 v) : ℝ) - v| ≤ |(decQ w : ℝ) - v| ∧
      (|(decQ (r64 v) : ℝ) - v| = |(decQ w : ℝ) - v| → decQ w ≠ decQ (r64 v) → (r64 v).getLsbD 0 = false) := by
  rcases eq_or_ne v 0 with rfl | h0
  · rw [r64_zero, decQ_posZero]
    exact ⟨by simp, fun _ _ => by decide⟩
  have hgrid := inGrid_decQ h0 hw
  have hr := decQ_r64 h0 hv
  have hev := getLsbD_zero_r64 h0 hv
  rw [← Real.dist_eq, ← Real.dist_eq, dist_comm _ v, dist_comm _ v, ← (Rat.cast_injective (α := ℝ)).ne_iff]
  rcases h0.lt_or_gt with hneg | hpos
  · obtain ⟨hle, heven⟩ := nearMagnitude_nearest hgrid.neg
    rw [if_pos hneg] at hr
    rw [abs_of_neg hneg, ← neg_eq_iff_eq_neg.2 hr, dist_neg_neg, dist_neg_neg] at hle heven
    exact ⟨hle, fun h hne => hev (heven h (neg_injective.ne hne))⟩
  · obtain ⟨hle, heven⟩ := nearMagnitude_nearest hgrid
    rw [if_neg hpos.not_gt] at hr
    rw [abs_of_pos hpos, ← hr] at hle heven
    exact ⟨hle, fun h hne => hev (heven h hne)⟩

/-- Settles O52, by `r64_nearest` below the overflow bound. -/
theorem roundingIsNearestEven : Obligations.RoundingIsNearestEven := by
  refine ⟨r64_zero, fun v hv => ?_, fun v hv => ?_, fun v hv => ⟨isFinite_r64 hv, fun w hw => r64_nearest hv hw⟩⟩
  · have hpos : 0 < v := overflowBound_pos.trans_le hv
    rw [r64_of_overflow (hv.trans (le_abs_self v)), if_neg hpos.not_gt, posInf]
  · have hneg : v < 0 := hv.trans_lt (neg_lt_zero.2 overflowBound_pos)
    rw [r64_of_overflow (le_abs.2 (.inr (le_neg_of_le_neg hv))), if_pos hneg, negInf]

/-- Rounding does not pass a word: the magnitude of R64(v) stays within that of any finite word v is within. -/
theorem abs_decQ_r64_le {v : ℝ} {w : Word} (hw : isFinite w = true) (h : |v| ≤ |(decQ w : ℝ)|) :
    |(decQ (r64 v) : ℝ)| ≤ |(decQ w : ℝ)| := by
  rcases eq_or_ne v 0 with rfl | h0
  · rw [r64_zero, decQ_posZero, Rat.cast_zero, abs_zero]
    exact abs_nonneg _
  have hnear := (nearMagnitude_nearest (inGrid_abs.2 (inGrid_decQ h0 hw))).1
  rw [dist_comm, dist_comm |v|, Real.dist_eq, Real.dist_eq, abs_of_nonneg (sub_nonneg.2 h), abs_le] at hnear
  obtain ⟨hlower, hupper⟩ := hnear
  rw [abs_decQ_r64 h0 (h.trans_lt (abs_decQ_lt hw)), abs_le]
  exact ⟨by linarith [abs_nonneg v], by linarith⟩

end Sys2Proof.Machine
end

section
/-! PROOFS. The IDEAL carrier (spec/00_scope.md R16, spec/41_ask_modulator.md R167): its sine is 0 at half periods and 1 at
the quarter period, and rounding keeps it within the amplitude. -/

namespace Sys2Proof.Machine

theorem idealCarrier_of_half_period {p m : ℕ} (a : Word) (hm : 0 < m) (h : 2 * p % m = 0) :
    idealCarrier a p m = posZero := by
  obtain ⟨k, hk⟩ := Nat.dvd_of_mod_eq_zero h
  have hphase : 2 * Real.pi * p / m = k * Real.pi := by
    have : (2 * p : ℝ) = m * k := by exact_mod_cast hk
    rw [div_eq_iff (by positivity)]
    linear_combination Real.pi * this
  rw [idealCarrier, hphase, Real.sin_nat_mul_pi, mul_zero, r64_zero]

theorem idealCarrier_of_quarter_period {p m : ℕ} (a : Word) (hm : 0 < m) (h : 4 * p = m) :
    idealCarrier a p m = r64 (decQ a) := by
  have hphase : 2 * Real.pi * p / m = Real.pi / 2 := by
    have : (4 * p : ℝ) = m := by exact_mod_cast h
    rw [div_eq_iff (by positivity)]
    linear_combination Real.pi / 2 * this
  rw [idealCarrier, hphase, Real.sin_pi_div_two, mul_one, r64_ratCast]

theorem abs_idealCarrier_le {a : Word} (ha : isFinite a = true) (p m : ℕ) :
    |decQ (idealCarrier a p m)| ≤ |decQ a| := by
  have hsin : |(decQ a : ℝ) * Real.sin (2 * Real.pi * p / m)| ≤ |(decQ a : ℝ)| := by
    rw [abs_mul]
    exact mul_le_of_le_one_right (abs_nonneg _) (Real.abs_sin_le_one _)
  exact_mod_cast abs_decQ_r64_le ha hsin

/-- Settles O54, a lemma for each clause. -/
theorem idealCarrierProperties : Obligations.IdealCarrierProperties := fun a p m ha hm =>
  ⟨idealCarrier_of_half_period a hm, idealCarrier_of_quarter_period a hm, abs_idealCarrier_le ha p m⟩

end Sys2Proof.Machine
end

section
/-! PROOFS. The IDEAL filter (spec/43_envelope_demod.md R204): the lists on which the model runs the recursion hold the
sequences of the rule, the newest term first. -/

namespace Sys2Proof.Machine

/-- The first n terms of a sequence, the newest first: the form in which `filterOutput` takes inputs and outputs. -/
def newestFirst (f : ℕ → ℝ) (n : ℕ) : List ℝ := ((List.range n).map f).reverse

theorem newestFirst_succ (f : ℕ → ℝ) (n : ℕ) : newestFirst f (n + 1) = f n :: newestFirst f n := by
  simp [newestFirst, List.range_succ]

theorem newestFirst_getD (f : ℕ → ℝ) (n i : ℕ) :
    (newestFirst f n).getD i 0 = if i + 1 ≤ n then f (n - (i + 1)) else 0 := by
  induction n generalizing i with
  | zero => simp [newestFirst]
  | succ n ih =>
    rw [newestFirst_succ]
    cases i with
    | zero => simp
    | succ i => rw [List.getD_cons_succ, ih]; simp

/-- y[n], the output of the recursion from rest on the input x. -/
def restOutput (b a : Fin 6 → ℝ) (x : ℕ → ℝ) (n : ℕ) : ℝ :=
  (filterOutputs b a (newestFirst x (n + 1))).headD 0

theorem filterOutputs_newestFirst (b a : Fin 6 → ℝ) (x : ℕ → ℝ) (n : ℕ) :
    filterOutputs b a (newestFirst x n) = newestFirst (restOutput b a x) n := by
  induction n with
  | zero => rfl
  | succ n ih =>
    rw [newestFirst_succ (restOutput b a x), ← ih, restOutput, newestFirst_succ, filterOutputs, List.headD_cons]

theorem restOutput_eq (b a : Fin 6 → ℝ) (x : ℕ → ℝ) (n : ℕ) :
    restOutput b a x n = (∑ i : Fin 6, if i.val ≤ n then b i * x (n - i.val) else 0) -
      ∑ i : Fin 5, if i.val + 1 ≤ n then a i.succ * restOutput b a x (n - (i.val + 1)) else 0 := by
  have hstep : restOutput b a x n =
      filterOutput b a (newestFirst x (n + 1)) (newestFirst (restOutput b a x) n) := by
    rw [← filterOutputs_newestFirst, restOutput, newestFirst_succ, filterOutputs, List.headD_cons]
  rw [hstep, filterOutput]
  simp only [newestFirst_getD, mul_ite, mul_zero, Nat.add_le_add_iff_right, Nat.add_sub_add_right]

/-- Settles O56, with y the outputs `restOutput`. -/
theorem idealFilterIsRecursion : Obligations.IdealFilterIsRecursion :=
  fun b a x => ⟨restOutput b a x, restOutput_eq b a x, fun _ => rfl⟩

end Sys2Proof.Machine
end

section
/-! PROOFS. STATUS, ERR_CODE, INT_STATUS and INT_ENABLE as words (spec/10_state.md R36 to R39). -/

namespace Sys2Proof.Machine

theorem getLsbD_bitAt (b : Bool) {k : ℕ} (hk : k < 64) (n : ℕ) : (bitAt b k).getLsbD n = (decide (n = k) && b) := by
  simp only [bitAt, BitVec.getLsbD_shiftLeft, BitVec.getLsbD_setWidth, BitVec.getLsbD_ofBool]
  grind

theorem getLsbD_statusWord (f : Status) (n : ℕ) :
    f.toWord.getLsbD n = (decide (n = 0) && f.busy || decide (n = 1) && f.err || decide (n = 2) && f.errMulti ||
      decide (n = 3) && f.cfgValid || decide (n = 4) && f.txValid || decide (n = 5) && f.rxValid ||
      decide (n = 6) && f.rxbValid || decide (n = 7) && f.berValid) := by
  simp only [Status.toWord, BitVec.getLsbD_or]
  simp (disch := omega) only [getLsbD_bitAt]

theorem getLsbD_errCodeWord (c : ErrCode) (n : ℕ) :
    c.toWord.getLsbD n =
      if n < 8 then c.code.toByte.getLsbD n else if n < 16 then c.info.getLsbD (n - 8)
      else if n < 24 then c.op.getLsbD (n - 16) else false := by
  have hcode : 8 ≤ n → c.code.toByte.getLsbD n = false := BitVec.getLsbD_of_ge _ _
  have hinfo : 16 ≤ n → c.info.getLsbD (n - 8) = false := fun h => BitVec.getLsbD_of_ge _ _ (by omega)
  have hop : 24 ≤ n → c.op.getLsbD (n - 16) = false := fun h => BitVec.getLsbD_of_ge _ _ (by omega)
  simp only [ErrCode.toWord, BitVec.getLsbD_or, BitVec.getLsbD_shiftLeft, BitVec.getLsbD_setWidth]
  grind

theorem errCodeWord_fields (c : ErrCode) :
    c.toWord.extractLsb' 0 8 = c.code.toByte ∧ c.toWord.extractLsb' 8 8 = c.info ∧
    c.toWord.extractLsb' 16 8 = c.op ∧ c.toWord.extractLsb' 24 40 = 0#40 := by
  refine ⟨?_, ?_, ?_, ?_⟩ <;> ext i hi <;>
    simp only [BitVec.getElem_extractLsb', getLsbD_errCodeWord] <;> grind

/-- Settles O14, word by word. -/
theorem statusAndErrorWords : Obligations.StatusAndErrorWords := by
  refine ⟨fun f n => ?_, errCodeWord_fields, fun i n => ?_, fun e n => ?_, fun k => ?_⟩
  · rw [getLsbD_statusWord]
    split <;> simp_all
  · simp (disch := omega) only [IntStatus.toWord, BitVec.getLsbD_or, getLsbD_bitAt]
    split <;> simp_all
  · simp (disch := omega) only [IntEnable.toWord, BitVec.getLsbD_or, getLsbD_bitAt]
    split <;> simp_all
  · cases k <;> rfl

end Sys2Proof.Machine
end

section
/-! PROOFS. The host port (spec/20_memory.md R80 to R91, spec/10_state.md R32 to R64): what each address reaches, and what
a read and a write of it give. -/

namespace Sys2Proof.Machine

/-! ### What an address reaches -/

theorem target_eq_reg_iff (p : Params) (a : Addr) (r : Reg) : target p a = .reg r ↔ a.toNat = r.addr := by
  refine ⟨fun h => ?_, target_reg p a r⟩
  unfold target at h
  dsimp only at h
  split at h
  · next q hq => cases h; exact (regAt_some hq).symm
  · split at h <;> cases h

theorem reg_addr_ne_of_le {n : ℕ} (h : 0x100 ≤ n) (r : Reg) : r.addr ≠ n :=
  ((reg_addr_lt r).trans_le h).ne

theorem mem_window_all (w : Window) : w ∈ Window.all := by
  cases w <;> decide

theorem window_base_injective : ∀ w ∈ Window.all, ∀ u ∈ Window.all, w.base = u.base → w = u := by
  decide

/-- No address is in two windows of 0x10000 words (20_memory.md R83). -/
theorem window_eq_of_mem {n : ℕ} {w u : Window} (hw : w.base ≤ n ∧ n < w.base + 0x10000)
    (hu : u.base ≤ n ∧ n < u.base + 0x10000) : w = u := by
  have haligned : ∀ x : Window, x.base % 0x10000 = 0 := fun x => by cases x <;> rfl
  have := haligned w
  have := haligned u
  exact window_base_injective w (mem_window_all w) u (mem_window_all u) (by omega)

theorem base_ge (w : Window) : 0x10000 ≤ w.base := by
  cases w <;> decide

theorem target_elem (p : Params) (a : Addr) {w : Window} {i : ℕ} (hi : i < w.capacity p) (ha : a.toNat = w.base + i) :
    target p a = .elem w i := by
  have hcap := capacity_le p w
  have hbase := base_ge w
  rw [target_window p a (reg_addr_ne_of_le (by omega))]
  split
  · next u hu =>
    have hmem := List.find?_some hu
    have hcapu := capacity_le p u
    rw [decide_eq_true_eq] at hmem
    obtain rfl : w = u := window_eq_of_mem (n := a.toNat) (by omega) (by omega)
    rw [ha, Nat.add_sub_cancel_left]
  · next hnone =>
    have := List.find?_eq_none.1 hnone w (mem_window_all w)
    rw [decide_eq_true_eq] at this
    omega

/-- Where the address is no register's and no window holds it below its capacity, nothing is reached (20_memory.md
R85). -/
theorem target_reserved (p : Params) (a : Addr) (hr : ∀ r : Reg, r.addr ≠ a.toNat)
    (hw : ∀ w : Window, w.base ≤ a.toNat → w.base + w.capacity p ≤ a.toNat) : target p a = .reserved := by
  rw [target_window p a hr, List.find?_eq_none.2]
  intro w _
  have := hw w
  rw [decide_eq_true_eq]
  omega

theorem lt_capacity_of_target_elem {p : Params} {a : Addr} {w : Window} {i : ℕ} (h : target p a = .elem w i) :
    i < w.capacity p := by
  unfold target at h
  dsimp only at h
  split at h
  · cases h
  · split at h
    · next hfind =>
      cases h
      have := List.find?_some hfind
      rw [decide_eq_true_eq] at this
      exact this.2
    · cases h

/-! ### What a read gives -/

/-- A reserved address reads 0, busy or idle (20_memory.md R85, R88). -/
theorem exec_rd_reserved {s : State} {a : Addr} (h : target Config.params a = .reserved) :
    exec (.rd a) s = .next (s.respond 0#64) := by
  rw [exec, execRd, readPort_held _ _ _ 0#64]
  simp [State.held, h, Target.stable]

section IdleReads

variable {s : State} (hb : s.regs.status.busy = false)
include hb

/-- The read of a register while BUSY = 0 (10_state.md R32 to R49). -/
theorem exec_rd_reg {a : Addr} {r : Reg} (ha : a.toNat = r.addr) :
    exec (.rd a) s = .next (s.respond (r.value Config.params s.regs)) := by
  rw [exec, execRd, readPort_held]
  simp [State.held, hb, target_reg _ _ r ha]

theorem held_elem_of_idle (p : Params) (w : Window) (i : ℕ) : s.held p (.elem w i) = s.mem.element w i := by
  simp [State.held, hb]

/-- The read of a written element while BUSY = 0 (10_state.md R61, R62). -/
theorem exec_rd_elem {a : Addr} {w : Window} {i : ℕ} {v : Word} (ht : target Config.params a = .elem w i)
    (hv : s.mem.element w i = some v) : exec (.rd a) s = .next (s.respond v) := by
  rw [exec, execRd, readPort_held]
  rw [ht, held_elem_of_idle hb, hv]

/-- The read of an element that was never written, while BUSY = 0 (10_state.md R63). -/
theorem exec_rd_unwritten {a : Addr} {w : Window} {i : ℕ} (ht : target Config.params a = .elem w i)
    (hv : s.mem.element w i = none) :
    exec (.rd a) s = .next { s.respond ((Target.elem w i).draw Config.params s.draws) with draws := s.draws + 1 } := by
  rw [exec, execRd, readPort_draw, ht]
  rw [ht, held_elem_of_idle hb, hv]

end IdleReads

theorem draw_elem (w : Window) (i n : ℕ) :
    (Target.elem w i).draw Config.params n =
      if w = .bitsIn ∨ w = .bitsOut then bitAt (Config.freeBit n) 0 else Config.freeWord n := by
  cases w <;> rfl

/-- The registers of the address map, each with its address and its value (10_state.md R32). -/
def registerReads (s : State) : List (Addr × Word) :=
  Reg.all.map (fun r => (BitVec.ofNat 20 r.addr, r.value Config.params s.regs))

/-- Settles O13: the list is that of the register map, and each of its registers is read at its address. -/
theorem idleRegisterReads : Obligations.IdleRegisterReads := by
  intro s a v hb hmem
  change (a, v) ∈ registerReads s at hmem
  obtain ⟨r, -, hr⟩ := List.mem_map.1 hmem
  obtain ⟨rfl, rfl⟩ := Prod.mk.inj hr
  have := reg_addr_lt r
  exact exec_rd_reg hb (Nat.mod_eq_of_lt (by omega))

/-- Settles O15, by whether the element has been written. -/
theorem idleBufferReads : Obligations.IdleBufferReads := by
  intro s a w i hb hi ha
  have ht := target_elem Config.params a hi ha
  exact ⟨fun v => exec_rd_elem hb ht, fun h => draw_elem w i s.draws ▸ exec_rd_unwritten hb ht h⟩

/-! ### What a write does -/

theorem store_of_readOnly {r : Reg} (h : r.access = .readOnly) (v : Word) (g : Regs) : r.store v g = g := by
  cases r <;> simp_all [Reg.access, Reg.store]

/-- Everything a host write can do (20_memory.md R89, 30_encoding.md R114, 10_state.md R38 to R44, R51). -/
inductive WriteEffect (s : State) (t : Target) (v : Word) : State → Prop where
  | ignored : WriteEffect s t v s
  | stored (r : Reg) (ht : t = .reg r) (hcmd : r ≠ .cmd)
      (hb : s.regs.status.busy = false ∨ r = .intStatus ∨ r = .intEnable) :
      WriteEffect s t v { s with regs := r.store v s.regs }
  | bitStored (i : ℕ) (ht : t = .elem .bitsIn i) (hb : s.regs.status.busy = false) :
      WriteEffect s t v { s with mem := { s.mem with bitsIn := s.mem.bitsIn.write i (v.getLsbD 0) } }
  | accepted (ht : t = .reg .cmd) (hb : s.regs.status.busy = false) :
      WriteEffect s t v { (s.setStatus { s.regs.status with busy := true }) with cmdLatch := v }
  | recorded (code : ErrorKind) (info op : BitVec 8) (ht : s.regs.status.busy = true ∨ t = .reg .cmd)
      (hnone : code ≠ .none) (hhalted : code = .halted → s.regs.status.err = true) :
      WriteEffect s t v (s.record code info op)

theorem hostWriteBusy_effect {s : State} (hb : s.regs.status.busy = true) (t : Target) (v : Word) :
    WriteEffect s t v (s.hostWriteBusy t v) := by
  unfold State.hostWriteBusy
  split
  · exact .stored .intStatus rfl (by decide) (.inr (.inl rfl))
  · exact .stored .intEnable rfl (by decide) (.inr (.inr rfl))
  · split
    · exact .recorded _ _ _ (.inl hb) (by decide) nofun
    · exact .ignored

theorem accept_effect {s : State} (hb : s.regs.status.busy = false) (v : Word) :
    WriteEffect s (.reg .cmd) v (s.accept v) := by
  unfold State.accept
  split
  · next h => exact .recorded _ _ _ (.inr rfl) (by decide) fun _ => (Bool.and_eq_true_iff.1 h).1
  · exact .accepted rfl hb

theorem hostWrite_effect (s : State) (t : Target) (v : Word) : WriteEffect s t v (s.hostWrite t v) := by
  unfold State.hostWrite
  split
  · next hb => exact hostWriteBusy_effect hb t v
  · next hb =>
    rw [Bool.not_eq_true] at hb
    unfold State.hostWriteIdle
    split
    · exact accept_effect hb v
    · next r hr => exact .stored r rfl (fun h => hr (by rw [h])) (.inl hb)
    · next i => exact .bitStored i rfl hb
    · exact .ignored
    · exact .ignored

/-- What is not written ignores a write, busy or idle (10_state.md R51, 20_memory.md R85). -/
theorem exec_wr_of_not_writable {a : Addr} {t : Target} (ht : target Config.params a = t) (h : t.writable = false)
    (s : State) (v : Word) : exec (.wr a v) s = .next s := by
  rw [exec, execWr, ht, State.hostWrite]
  split
  · unfold State.hostWriteBusy
    split
    · cases h
    · cases h
    · simp [h]
  · unfold State.hostWriteIdle
    split
    · cases h
    · rw [store_of_readOnly (by simpa [Target.writable] using h)]
    · cases h
    · rfl
    · rfl

/-- The write of INT_STATUS or INT_ENABLE, busy or idle (20_memory.md R89). -/
theorem exec_wr_interrupt {a : Addr} {r : Reg} (ha : a.toNat = r.addr) (hr : r = .intStatus ∨ r = .intEnable)
    (s : State) (v : Word) : exec (.wr a v) s = .next { s with regs := r.store v s.regs } := by
  rw [exec, execWr, target_reg _ _ r ha, State.hostWrite]
  rcases hr with rfl | rfl <;> split <;> rfl

section IdleWrites

variable {s : State} (hb : s.regs.status.busy = false)
include hb

/-- The write of a register other than CMD while BUSY = 0 (10_state.md R38 to R44). -/
theorem exec_wr_reg {a : Addr} {r : Reg} (ha : a.toNat = r.addr) (hr : r ≠ .cmd) (v : Word) :
    exec (.wr a v) s = .next { s with regs := r.store v s.regs } := by
  rw [exec, execWr, target_reg _ _ r ha, State.hostWrite, hb]
  unfold State.hostWriteIdle
  split <;> simp_all

/-- The write of an element of BITS_IN while BUSY = 0 (10_state.md R61, R63). -/
theorem exec_wr_bitsIn {a : Addr} {i : ℕ} (ht : target Config.params a = .elem .bitsIn i) (v : Word) :
    exec (.wr a v) s =
      .next { s with mem := { s.mem with bitsIn := s.mem.bitsIn.write i (v.getLsbD 0) } } := by
  rw [exec, execWr, ht, State.hostWrite, hb]
  rfl

end IdleWrites

/-! ### Reserved, read-only, configuration, operand and interrupt addresses, and BITS_IN -/

/-- The addresses of 20_memory.md R83 that are in no window. -/
theorem not_mem_window_of_gap {n : ℕ} (h : n < 0x10000 ∨ (0x30000 ≤ n ∧ n < 0x40000) ∨ 0x80000 ≤ n) (w : Window) :
    ¬(w.base ≤ n ∧ n < w.base + 0x10000) := by
  cases w <;> simp only [Window.base] <;> omega

theorem target_reserved_of_gap (p : Params) {a : Addr} (hr : ∀ r : Reg, r.addr ≠ a.toNat)
    (h : a.toNat < 0x10000 ∨ (0x30000 ≤ a.toNat ∧ a.toNat < 0x40000) ∨ 0x80000 ≤ a.toNat) :
    target p a = .reserved := by
  refine target_reserved p a hr fun w _ => ?_
  have := not_mem_window_of_gap h w
  have := capacity_le p w
  omega

theorem target_reserved_of_past_capacity (p : Params) {a : Addr} {w : Window} (hlo : w.base + w.capacity p ≤ a.toNat)
    (hhi : a.toNat < w.base + 0x10000) : target p a = .reserved := by
  have hbase := base_ge w
  refine target_reserved p a (reg_addr_ne_of_le (by omega)) fun u hu => ?_
  by_contra hlt
  have hcap := capacity_le p u
  obtain rfl : w = u := window_eq_of_mem (n := a.toNat) (by omega) (by omega)
  exact hlt hlo

/-- Settles O17: each of the five kinds of address reaches nothing. -/
theorem reservedAddressesAreInert : Obligations.ReservedAddressesAreInert := by
  intro s a v h
  have ht : target Config.params a = .reserved := by
    rcases h with ⟨hlt, hr⟩ | h | h | h | ⟨w, hlo, hhi⟩
    · exact target_reserved_of_gap _ hr (by omega)
    · exact target_reserved_of_gap _ (reg_addr_ne_of_le (by omega)) (by omega)
    · exact target_reserved_of_gap _ (reg_addr_ne_of_le (by omega)) (by omega)
    · exact target_reserved_of_gap _ (reg_addr_ne_of_le (by omega)) (by omega)
    · exact target_reserved_of_past_capacity _ hlo hhi
  exact ⟨exec_rd_reserved ht, exec_wr_of_not_writable ht rfl s v⟩

theorem writable_elem {w : Window} (hw : w ≠ .bitsIn) (i : ℕ) : (Target.elem w i).writable = false := by
  cases w with
  | bitsIn => exact absurd rfl hw
  | _ => rfl

theorem extractLsb'_setWidth_high (x : U32) : (x.setWidth 64).extractLsb' 32 32 = 0#32 := by
  ext i hi
  simp

theorem extractLsb'_low (v : Word) : v.extractLsb' 0 32 = v.truncate 32 := by
  ext i hi
  simp

/-- Settles O18: a read-only target is not writable, and a 32-bit field is stored and read through `setWidth`. -/
theorem readOnlyTargetsIgnoreWrites : Obligations.ReadOnlyTargetsIgnoreWrites := by
  refine ⟨fun s a v h => ?_, fun r => ?_, fun s a v hb ha => ?_, fun g r hr => ?_⟩
  · rcases h with ⟨r, hr, ha⟩ | ⟨w, i, hw, hi, ha⟩
    · exact exec_wr_of_not_writable (target_reg _ a r ha) (by simp [Target.writable, hr]) s v
    · exact exec_wr_of_not_writable (target_elem _ a hi ha) (writable_elem hw i) s v
  · cases r <;> simp [Reg.access]
  · have hfield : ∃ r ∈ [Reg.bitRate, .carrierFreq, .sampleRate, .nbits], a.toNat = r.addr := by
      fin_cases ha <;> decide
    obtain ⟨r, hr, ha⟩ := hfield
    have hcmd : r ≠ .cmd := by rintro rfl; simp at hr
    refine ⟨_, exec_wr_reg hb ha hcmd v, ?_⟩
    rw [exec_rd_reg _ ha]
    · fin_cases hr <;> simp [Reg.value, Reg.store, Regs.invalidate, extractLsb'_low]
    · fin_cases hr <;> exact hb
  · fin_cases hr <;> exact extractLsb'_setWidth_high _

/-- Settles O19, by `exec_wr_reg` at each of the three registers. -/
theorem configWriteInvalidates : Obligations.ConfigWriteInvalidates := by
  intro s v hb
  rw [← extractLsb'_low]
  refine ⟨exec_wr_reg (r := .bitRate) hb rfl (by decide) v, exec_wr_reg (r := .carrierFreq) hb rfl (by decide) v,
    exec_wr_reg (r := .sampleRate) hb rfl (by decide) v, fun r hr => ?_⟩
  fin_cases hr <;> exact extractLsb'_setWidth_high _

/-- Settles O20, by `exec_wr_reg` at each of the five registers. -/
theorem operandWritesStore : Obligations.OperandWritesStore := by
  intro s v hb
  rw [← extractLsb'_low]
  exact ⟨exec_wr_reg (r := .nbits) hb rfl (by decide) v, exec_wr_reg (r := .amplitude) hb rfl (by decide) v,
    exec_wr_reg (r := .snrDb) hb rfl (by decide) v, exec_wr_reg (r := .threshold) hb rfl (by decide) v,
    exec_wr_reg (r := .noiseSeed) hb rfl (by decide) v⟩

/-- Settles O21, by `exec_wr_interrupt` at each of the two registers. -/
theorem interruptRegisterWrites : Obligations.InterruptRegisterWrites := by
  intro s v
  exact ⟨exec_wr_interrupt (r := .intStatus) rfl (.inl rfl) s v, exec_wr_interrupt (r := .intEnable) rfl (.inr rfl) s v⟩

theorem bitAt_getLsbD_zero (v : Word) : bitAt (v.getLsbD 0) 0 = (v.truncate 1).zeroExtend 64 := by
  ext i hi
  cases i <;> simp [bitAt]

/-- Settles O22: what the store leaves is `buf_read_write`. -/
theorem bitsInWriteStoresBit : Obligations.BitsInWriteStoresBit := by
  intro s a v i hb hi ha
  have ht : target Config.params a = .elem .bitsIn i := target_elem _ a hi ha
  refine ⟨_, exec_wr_bitsIn hb ht v, rfl, ?_, fun j hj => ?_, ?_⟩
  · rw [buf_read_write, if_pos rfl]
  · rw [buf_read_write, if_neg hj]
  · refine exec_rd_elem ?_ ht ?_
    · exact hb
    · simp only [Memory.element, buf_read_write, if_pos, Option.map_some, bitAt_getLsbD_zero]

/-! ### What no write changes -/

theorem store_busy (r : Reg) (v : Word) (g : Regs) : (r.store v g).status.busy = g.status.busy := by
  cases r <;> rfl

/-- The registers a host write can store into, as a frame (10_state.md R38 to R44). -/
theorem store_frame (r : Reg) (v : Word) (g : Regs) :
    r.store v g = { g with
      status := (r.store v g).status, errCode := (r.store v g).errCode, intStatus := (r.store v g).intStatus,
      intEnable := (r.store v g).intEnable,
      bitRate := (r.store v g).bitRate, carrierFreq := (r.store v g).carrierFreq,
      sampleRate := (r.store v g).sampleRate, nbits := (r.store v g).nbits, amplitude := (r.store v g).amplitude,
      snrDb := (r.store v g).snrDb, threshold := (r.store v g).threshold, noiseSeed := (r.store v g).noiseSeed,
      noiseCtr := (r.store v g).noiseCtr } := by
  cases r <;> rfl

/-- Settles O24, clause by clause over everything that a write can do. -/
theorem writesCompleteWithFrame : Obligations.WritesCompleteWithFrame := by
  intro a v s
  have ha : target Config.params a = .reg .cmd → a = 0x002#20 := fun h =>
    BitVec.eq_of_toNat_eq ((target_eq_reg_iff _ _ _).1 h)
  refine ⟨_, rfl, ?_⟩
  generalize hu : s.hostWrite (target Config.params a) v = u
  have heffect : WriteEffect s (target Config.params a) v u := hu ▸ hostWrite_effect s _ v
  clear hu
  cases heffect with
  | ignored => simp
  | stored r ht hcmd hb =>
    refine ⟨rfl, fun _ _ => rfl, fun _ => rfl, rfl, rfl, rfl, rfl, fun _ => ⟨rfl, store_busy r v _⟩, fun h => ?_,
      fun h => ?_, ?_⟩
    · exact absurd ht (h.2 r)
    · rcases hb with hb | rfl | rfl
      · simp [hb] at h
      · rfl
      · rfl
    · exact store_frame r v s.regs
  | bitStored i ht hb =>
    refine ⟨rfl, fun j hj => ?_, fun h => ?_, rfl, rfl, rfl, rfl, fun _ => ⟨rfl, rfl⟩, fun _ => rfl, fun _ => rfl, rfl⟩
    · have hij : j ≠ i := fun h => hj ⟨hb, h ▸ ht⟩
      simp [buf_read_write, hij]
    · rcases h with h | h
      · simp [hb] at h
      · exact absurd ht (h i)
  | accepted ht hb =>
    refine ⟨rfl, fun _ _ => rfl, fun _ => rfl, rfl, rfl, rfl, rfl, fun h => ?_, fun h => ?_, fun h => ?_, rfl⟩
    · simp [ha ht, hb] at h
    · exact absurd ht (h.2 _)
    · simp [hb] at h
  | recorded code info op ht =>
    refine ⟨rfl, fun _ _ => rfl, fun _ => rfl, rfl, rfl, rfl, rfl, fun _ => ⟨rfl, ?_⟩, fun h => ?_, fun _ => ?_, ?_⟩
    · simp [record_eq]
    · rcases ht with ht | ht
      · simp [h.1] at ht
      · exact absurd ht (h.2 _)
    · simp [record_eq]
    · simp [record_eq]

end Sys2Proof.Machine
end

section
/-! PROOFS. The invariant (spec/10_state.md R37, R41, R47; spec/43_envelope_demod.md R201): each kind of change
that a step makes keeps it. -/

namespace Sys2Proof.Machine

section Frames

variable {p : Params} {s t : State}

theorem State.Inv.congr (h : s.Inv p) (hr : t.regs = s.regs) (hm : t.mem = s.mem) : t.Inv p := by
  cases s
  cases t
  cases hr
  cases hm
  exact ⟨h.chained, h.errorSound, h.configSound, h.lengthsSound, h.resultSound, h.written, h.memWf, h.memWithin⟩

/-- The registers and flags the invariant does not speak of: BUSY, the interrupts and the operands. -/
theorem State.Inv.of_frame (h : s.Inv p) (hm : t.mem = s.mem)
    (hr : t.regs = { s.regs with
      status := { s.regs.status with busy := t.regs.status.busy }, intStatus := t.regs.intStatus,
      intEnable := t.regs.intEnable, nbits := t.regs.nbits, amplitude := t.regs.amplitude, snrDb := t.regs.snrDb,
      threshold := t.regs.threshold, noiseSeed := t.regs.noiseSeed, noiseCtr := t.regs.noiseCtr }) : t.Inv p := by
  have key : State.Inv p { s with regs := { s.regs with
      status := { s.regs.status with busy := t.regs.status.busy }, intStatus := t.regs.intStatus,
      intEnable := t.regs.intEnable, nbits := t.regs.nbits, amplitude := t.regs.amplitude, snrDb := t.regs.snrDb,
      threshold := t.regs.threshold, noiseSeed := t.regs.noiseSeed, noiseCtr := t.regs.noiseCtr } } :=
    ⟨h.chained, h.errorSound, h.configSound, h.lengthsSound, h.resultSound, h.written, h.memWf, h.memWithin⟩
  exact key.congr hr hm

/-- With every valid flag clear, only the error record and the buffers' form are left to hold. -/
theorem inv_of_no_stage (hf : s.regs.status = s.regs.status.clearFrom .cfg) (he : s.regs.errorSound)
    (hwf : s.mem.wf = true) (hin : s.mem.within p = true) : s.Inv p := by
  have hcfg : s.regs.status.cfgValid = false := congrArg Status.cfgValid hf
  have htx : s.regs.status.txValid = false := congrArg Status.txValid hf
  have hrx : s.regs.status.rxValid = false := congrArg Status.rxValid hf
  have hrxb : s.regs.status.rxbValid = false := congrArg Status.rxbValid hf
  have hber : s.regs.status.berValid = false := congrArg Status.berValid hf
  refine ⟨?_, he, ?_, ?_, ?_, ?_, hwf, hin⟩
  · simp [Status.chained, htx, hrx, hrxb, hber]
  · simp [Regs.configSound, hcfg]
  · simp [Regs.lengthsSound, htx, hrx, hrxb]
  · simp [Regs.resultSound, hber]
  · simp [State.written, htx, hrx, hrxb]

end Frames

/-! ### Errors -/

theorem errorSound_record {g : Regs} {code : ErrorKind} (h : g.errorSound) (hnone : code ≠ .none)
    (hhalted : code = .halted → g.status.err = true) (info op : BitVec 8) : (g.record code info op).errorSound := by
  obtain ⟨-, herr⟩ := h
  rw [record_eq]
  refine ⟨nofun, fun _ => ?_⟩
  cases he : g.status.err with
  | false => simp_all
  | true => simpa [he] using herr he

theorem State.Inv.record {p : Params} {s : State} (h : s.Inv p) {code : ErrorKind} (hnone : code ≠ .none)
    (hhalted : code = .halted → s.regs.status.err = true) (info op : BitVec 8) : (s.record code info op).Inv p := by
  have he := errorSound_record h.errorSound hnone hhalted info op
  unfold State.record
  rw [record_eq] at he ⊢
  exact ⟨h.chained, he, h.configSound, h.lengthsSound, h.resultSound, h.written, h.memWf, h.memWithin⟩

theorem State.Inv.raise {p : Params} {s : State} (h : s.Inv p) {code : ErrorKind} (hnone : code ≠ .none)
    (hhalted : code ≠ .halted) (info op : BitVec 8) : (s.raise code info op).Inv p :=
  (h.record hnone (absurd · hhalted) info op).of_frame rfl rfl

/-! ### The shape of a command's core step -/

/-- What a command's check may raise: an error that a core step can record (60_exceptions.md R251). -/
def Raisable (check : Option (ErrorKind × BitVec 8)) : Prop :=
  ∀ code info, check = some (code, info) → code ≠ .none ∧ code ≠ .halted

theorem inv_perform {p : Params} {s effect : State} {check : Option (ErrorKind × BitVec 8)} (h : s.Inv p)
    (hcheck : Raisable check) (heffect : check = none → effect.Inv p) (op : BitVec 8) :
    (perform op check effect s).Inv p := by
  rcases perform_cases op check effect s with ⟨code, info, hsome, hp⟩ | ⟨hnone, hp⟩ <;> rw [hp]
  · obtain ⟨hn, hh⟩ := hcheck code info hsome
    exact h.raise hn hh info op
  · exact (heffect hnone).of_frame rfl rfl

/-- The flag that a stage's own flag stands on (10_state.md R41). -/
def Status.ready (f : Status) : Stage → Prop
  | .cfg => True
  | .tx => f.cfgValid = true
  | .rx => f.txValid = true
  | .rxb => f.rxValid = true
  | .ber => f.rxbValid = true

theorem chained_validate {f : Status} {st : Stage} (h : f.chained) (hr : f.ready st) : (f.validate st).chained := by
  obtain ⟨hber, hrxb, hrx, htx⟩ := h
  cases st <;> simp_all [Status.chained, Status.ready, Status.validate, Status.clearFrom]

theorem memory_within_iff (p : Params) (m : Memory) :
    m.within p = true ↔ m.bitsIn.within p.nMax = true ∧ m.bitsOut.within p.nMax = true ∧ m.time.within p.lMax = true ∧
      m.tx.within p.lMax = true ∧ m.rx.within p.lMax = true ∧ m.filt.within p.lMax = true := by
  simp only [Memory.within, Bool.and_eq_true, and_assoc]

theorem bitsIn_write_within {p : Params} {m : Memory} (h : m.within p = true) {k : ℕ} (hk : k < p.nMax) {v : Bool} :
    Memory.within p { m with bitsIn := m.bitsIn.write k v } = true := by
  rw [memory_within_iff] at h ⊢
  obtain ⟨hbitsIn, hrest⟩ := h
  exact ⟨buf_within_write _ _ _ _ hk hbitsIn, hrest⟩

theorem time_tx_fill_within {p : Params} {m : Memory} (h : m.within p = true) {ts xs : List Word}
    (hts : ts.length ≤ p.lMax) (hxs : xs.length ≤ p.lMax) :
    Memory.within p { m with time := m.time.fill ts, tx := m.tx.fill xs } = true := by
  rw [memory_within_iff] at h ⊢
  obtain ⟨hbitsIn, hbitsOut, htime, htx, hrest⟩ := h
  exact ⟨hbitsIn, hbitsOut, buf_within_fill _ _ _ hts htime, buf_within_fill _ _ _ hxs htx, hrest⟩

theorem rx_fill_within {p : Params} {m : Memory} (h : m.within p = true) {xs : List Word} (hxs : xs.length ≤ p.lMax) :
    Memory.within p { m with rx := m.rx.fill xs } = true := by
  rw [memory_within_iff] at h ⊢
  obtain ⟨hbitsIn, hbitsOut, htime, htx, hrx, hfilt⟩ := h
  exact ⟨hbitsIn, hbitsOut, htime, htx, buf_within_fill _ _ _ hxs hrx, hfilt⟩

theorem filt_bitsOut_fill_within {p : Params} {m : Memory} (h : m.within p = true) {ys : List Word} {bs : List Bool}
    (hys : ys.length ≤ p.lMax) (hbs : bs.length ≤ p.nMax) :
    Memory.within p { m with filt := m.filt.fill ys, bitsOut := m.bitsOut.fill bs } = true := by
  rw [memory_within_iff] at h ⊢
  obtain ⟨hbitsIn, hbitsOut, htime, htx, hrx, hfilt⟩ := h
  exact ⟨hbitsIn, buf_within_fill _ _ _ hbs hbitsOut, htime, htx, hrx, buf_within_fill _ _ _ hys hfilt⟩

theorem fill_read_isSome {α : Type} (b : Buf α) {vs : List α} {k : ℕ} (hk : k < vs.length) :
    ((b.fill vs).read k).isSome := by
  simp [buf_read_fill, hk]

/-! ### CONFIG -/

theorem raisable_configCheck (g : Regs) : Raisable (configCheck g) := by
  intro code info h
  unfold configCheck at h
  dsimp only at h
  split_ifs at h <;> cases h <;> decide

theorem configRegs_spb (p : Params) (g : Regs) :
    (configRegs p g).spb.toNat = samplesPerBit g.bitRate.toNat g.sampleRate.toNat :=
  Nat.mod_eq_of_lt ((Nat.div_le_self _ _).trans_lt g.sampleRate.isLt)

theorem configSound_configRegs (p : Params) {g : Regs} (h : configCheck g = none) : (configRegs p g).configSound p := by
  intro _
  refine ⟨h, configRegs_spb p g, ?_, rfl, rfl, rfl⟩
  rw [configRegs_spb]
  rfl

theorem inv_configRegs {p : Params} {s : State} (h : s.Inv p) (hcheck : configCheck s.regs = none) :
    State.Inv p { s with regs := configRegs p s.regs } where
  chained := chained_validate h.chained trivial
  errorSound := h.errorSound
  configSound := configSound_configRegs p hcheck
  lengthsSound := ⟨nofun, nofun, nofun⟩
  resultSound := nofun
  written := ⟨nofun, nofun, nofun⟩
  memWf := h.memWf
  memWithin := h.memWithin

/-! ### MODULATE -/

theorem raisable_modulateCheck (p : Params) (g : Regs) : Raisable (modulateCheck p g) := by
  intro code info h
  unfold modulateCheck at h
  split_ifs at h <;> cases h <;> decide

theorem modulateCheck_eq_none {p : Params} {g : Regs} (h : modulateCheck p g = none) :
    g.status.cfgValid = true ∧ g.nbits.toNat ≤ p.nMax ∧ g.nbits.toNat * g.spb.toNat ≤ p.lMax := by
  unfold modulateCheck at h
  split_ifs at h with hcfg _ hn hl
  exact ⟨by simpa using hcfg, not_lt.1 hn, not_lt.1 hl⟩

theorem timeWords_length (m l : ℕ) : (timeWords m l).length = l := by
  simp [timeWords]

theorem txWords_length (p : Params) (amplitude : Word) (fc m spb l : ℕ) (bits : List Bool) :
    (txWords p amplitude fc m spb l bits).length = l := by
  simp [txWords]

theorem inv_modulateEffect {p : Params} {s : State} (h : s.Inv p) (hcheck : modulateCheck p s.regs = none) :
    (modulateEffect p s).Inv p := by
  obtain ⟨hcfg, hn, hl⟩ := modulateCheck_eq_none hcheck
  have hlmax := lMax_le p
  have hlen : (modulateEffect p s).regs.nsamples.toNat = s.regs.nbits.toNat * s.regs.spb.toNat :=
    Nat.mod_eq_of_lt (by omega)
  exact
    { chained := chained_validate h.chained hcfg
      errorSound := h.errorSound
      configSound := h.configSound
      lengthsSound := ⟨fun _ => ⟨hn, hlen, hlen.trans_le hl⟩, nofun, nofun⟩
      resultSound := nofun
      written := ⟨fun _ k hk => ⟨fill_read_isSome _ (hk.trans_eq (hlen.trans (timeWords_length _ _).symm)),
        fill_read_isSome _ (hk.trans_eq (hlen.trans (txWords_length _ _ _ _ _ _ _).symm))⟩, nofun, nofun⟩
      memWf := time_tx_fill_wf _ _ _ h.memWf
      memWithin := time_tx_fill_within h.memWithin ((timeWords_length _ _).trans_le hl)
        ((txWords_length _ _ _ _ _ _ _).trans_le hl) }

/-! ### ADD_NOISE -/

theorem raisable_addNoiseCheck (g : Regs) (tx : List Word) : Raisable (addNoiseCheck g tx) := by
  intro code info h
  unfold addNoiseCheck at h
  split_ifs at h <;> cases h <;> decide

theorem addNoiseCheck_eq_none {g : Regs} {tx : List Word} (h : addNoiseCheck g tx = none) :
    g.status.txValid = true := by
  unfold addNoiseCheck at h
  split_ifs at h with _ htx
  simpa using htx

theorem rxWords_channelInput_length (p : Params) (s : State) (seed ctr : Word) (plan : NoisePlan) :
    (rxWords p seed ctr plan (channelInput p s).1).length = s.regs.nsamples.toNat := by
  simp [rxWords, channelInput, readWords]

theorem inv_addNoiseEffect {p : Params} {s : State} (h : s.Inv p)
    (hcheck : addNoiseCheck s.regs (channelInput p s).1 = none) : (addNoiseEffect p s).Inv p := by
  have htx := addNoiseCheck_eq_none hcheck
  obtain ⟨htxLengths, -, -⟩ := h.lengthsSound
  obtain ⟨htxWritten, -, -⟩ := h.written
  obtain ⟨-, -, hlmax⟩ := htxLengths htx
  exact
    { chained := chained_validate h.chained htx
      errorSound := h.errorSound
      configSound := h.configSound
      lengthsSound := ⟨htxLengths, fun _ => rfl, nofun⟩
      resultSound := nofun
      written := ⟨htxWritten,
        fun _ k hk => fill_read_isSome _ (hk.trans_eq (rxWords_channelInput_length p s _ _ _).symm), nofun⟩
      memWf := rx_fill_wf _ _ h.memWf
      memWithin := rx_fill_within h.memWithin ((rxWords_channelInput_length p s _ _ _).trans_le hlmax) }

/-! ### DEMODULATE -/

theorem raisable_demodulateCheck (g : Regs) : Raisable (demodulateCheck g) := by
  intro code info h
  unfold demodulateCheck at h
  split_ifs at h <;> cases h <;> decide

theorem demodulateCheck_eq_none {g : Regs} (h : demodulateCheck g = none) :
    g.status.rxValid = true ∧ g.nbits = g.rxN := by
  unfold demodulateCheck at h
  split_ifs at h with _ hrx hn _
  exact ⟨by simpa using hrx, not_not.1 hn⟩

theorem filtWords_length (p : Params) (c : Coeffs) (rx : List Word) (drawn : ℕ) :
    (filtWords p c rx drawn).length = rx.length := by
  have hgood : (rx.takeWhile isFinite).length ≤ rx.length := List.Sublist.length_le (List.takeWhile_sublist _)
  simp only [filtWords, lowPassAll, rectified, drawWords, List.length_append, List.length_map, List.length_range]
  omega

theorem filtWords_demodInput_length (p : Params) (s : State) (c : Coeffs) (drawn : ℕ) :
    (filtWords p c (demodInput p s).1 drawn).length = s.regs.nbits.toNat * s.regs.spb.toNat := by
  simp [filtWords_length, demodInput, readWords]

theorem demodSamples_length (p : Params) (s : State) : (demodSamples p s).1.length = s.regs.nbits.toNat := by
  simp [demodSamples, readWords]

theorem inv_demodulateEffect {p : Params} {s : State} (h : s.Inv p) (hcheck : demodulateCheck s.regs = none) :
    (demodulateEffect p s).Inv p := by
  obtain ⟨hrx, hn⟩ := demodulateCheck_eq_none hcheck
  obtain ⟨-, -, hchain, -⟩ := h.chained
  obtain ⟨htxLengths, hrxN, -⟩ := h.lengthsSound
  obtain ⟨htxWritten, hrxWritten, -⟩ := h.written
  obtain ⟨hnmax, hlen, hlmax⟩ := htxLengths (hchain hrx)
  have hbits : s.regs.nbits = s.regs.txN := hn.trans (hrxN hrx)
  rw [← hbits] at hnmax hlen
  have hys := (filtWords_demodInput_length p s (demodCoeffs p s.regs) (demodInput p s).2).trans hlen.symm
  have hbs : ((demodSamples p s).1.map (comparator s.regs.threshold)).length = s.regs.nbits.toNat := by
    rw [List.length_map, demodSamples_length]
  exact
    { chained := chained_validate h.chained hrx
      errorSound := h.errorSound
      configSound := h.configSound
      lengthsSound := ⟨htxLengths, hrxN, fun _ => hn⟩
      resultSound := nofun
      written := ⟨htxWritten, hrxWritten, fun _ => ⟨fun k hk => fill_read_isSome _ (hk.trans_eq hys.symm),
        fun i hi => fill_read_isSome _ (hi.trans_eq hbs.symm)⟩⟩
      memWf := filt_bitsOut_fill_wf _ _ _ h.memWf
      memWithin := filt_bitsOut_fill_within h.memWithin (hys.trans_le hlmax) (hbs.trans_le hnmax) }

/-! ### COMPUTE_BER -/

theorem raisable_computeBerCheck (g : Regs) : Raisable (computeBerCheck g) := by
  intro code info h
  unfold computeBerCheck at h
  split_ifs at h <;> cases h <;> decide

theorem computeBerCheck_eq_none {g : Regs} (h : computeBerCheck g = none) :
    g.status.rxbValid = true ∧ g.nbits = g.rxbN ∧ g.nbits ≠ 0 := by
  unfold computeBerCheck at h
  split_ifs at h with _ hrxb hn hzero
  exact ⟨by simpa using hrxb, not_not.1 hn, hzero⟩

theorem errorCount_le (p : Params) (s : State) :
    errorCount (berOriginal p s).1 (berRecovered p s).1 ≤ s.regs.nbits.toNat := by
  refine (List.length_filter_le _ _).trans ?_
  simp [berOriginal, berRecovered, readBits]

theorem inv_computeBerEffect {p : Params} {s : State} (h : s.Inv p) (hcheck : computeBerCheck s.regs = none) :
    (computeBerEffect p s).Inv p := by
  obtain ⟨hrxb, hn, hzero⟩ := computeBerCheck_eq_none hcheck
  have hle := errorCount_le p s
  have hcount : (computeBerEffect p s).regs.berErrors.toNat =
      errorCount (berOriginal p s).1 (berRecovered p s).1 :=
    Nat.mod_eq_of_lt (hle.trans_lt s.regs.nbits.isLt)
  have hpos : 0 < s.regs.nbits.toNat := by bv_omega
  exact
    { chained := chained_validate h.chained hrxb
      errorSound := h.errorSound
      configSound := h.configSound
      lengthsSound := h.lengthsSound
      resultSound := fun _ => ⟨hpos, hcount.trans_le hle, hn, by rw [hcount]; rfl⟩
      written := h.written
      memWf := h.memWf
      memWithin := h.memWithin }

/-! ### Every step -/

theorem inv_reset_regs {p : Params} {s : State} (hr : s.regs = Regs.reset) (hwf : s.mem.wf = true)
    (hin : s.mem.within p = true) : s.Inv p :=
  inv_of_no_stage (by rw [hr]; rfl) (by rw [hr]; exact ⟨fun _ => ⟨rfl, rfl⟩, nofun⟩) hwf hin

theorem errorSound_clearError (g : Regs) : g.clearError.errorSound := ⟨fun _ => ⟨rfl, rfl⟩, nofun⟩

theorem inv_exec_command {s t : State} {i : Instr} (h : s.Inv Config.params) (hi : i.isCommand = true)
    (hexec : exec i s = .next t) : t.Inv Config.params := by
  cases i <;> cases hexec
  case nop => exact h.of_frame rfl rfl
  case config => exact inv_perform h (raisable_configCheck _) (inv_configRegs h) _
  case modulate => exact inv_perform h (raisable_modulateCheck _ _) (inv_modulateEffect h) _
  case addNoise => exact inv_perform h (raisable_addNoiseCheck _ _) (inv_addNoiseEffect h) _
  case demodulate => exact inv_perform h (raisable_demodulateCheck _) (inv_demodulateEffect h) _
  case computeBer => exact inv_perform h (raisable_computeBerCheck _) (inv_computeBerEffect h) _
  case clearError =>
    exact ⟨h.chained, errorSound_clearError s.regs, h.configSound, h.lengthsSound, h.resultSound, h.written, h.memWf,
      h.memWithin⟩
  case softReset => exact inv_reset_regs rfl h.memWf h.memWithin
  case wr => cases hi
  case rd => cases hi

theorem inv_coreStep {s t : State} (h : s.Inv Config.params) (hstep : coreStep s = .next t) : t.Inv Config.params := by
  rcases coreStep_cases hstep with ⟨i, hi, -, hexec⟩ | ⟨info, rfl⟩
  · exact inv_exec_command h hi hexec
  · exact h.raise (code := .illegal) nofun nofun info _

/-- A configuration write leaves no stage valid; every other store is of a register the invariant does not speak of. -/
theorem inv_store {p : Params} {s : State} (h : s.Inv p) (r : Reg) (v : Word) :
    State.Inv p { s with regs := r.store v s.regs } := by
  cases r with
  | bitRate | carrierFreq | sampleRate => exact inv_of_no_stage rfl h.errorSound h.memWf h.memWithin
  | _ => exact h.of_frame rfl rfl

theorem inv_writeEffect {p : Params} {s t : State} {a : Addr} {v : Word} (h : s.Inv p)
    (heffect : WriteEffect s (target p a) v t) : t.Inv p := by
  cases heffect with
  | ignored => exact h
  | stored r => exact inv_store h r v
  | bitStored i ht =>
    exact ⟨h.chained, h.errorSound, h.configSound, h.lengthsSound, h.resultSound, h.written,
      bitsIn_write_wf _ _ _ h.memWf, bitsIn_write_within h.memWithin (lt_capacity_of_target_elem ht)⟩
  | accepted => exact h.of_frame rfl rfl
  | recorded code info op _ hnone hhalted => exact h.record hnone hhalted info op

theorem inv_hostEvent {s t : State} {e : HostEvent} (h : s.Inv Config.params) (he : hostEvent e s = .next t) :
    t.Inv Config.params := by
  rcases hostEvent_cases he with ⟨a, v, rfl⟩ | ⟨a, rfl⟩ | rfl
  · exact inv_writeEffect h (hostWrite_effect s _ v)
  · obtain ⟨v, n, hread, -⟩ := readPort_eq Config.params a s
    exact hread ▸ h.congr rfl rfl
  · exact inv_reset_regs rfl rfl rfl

/-- Settles O59, over everything that a step can do (`step_cases`). -/
theorem stepKeepsInvariant : Obligations.StepKeepsInvariant := by
  intro s t h hstep
  rcases step_cases hstep with rfl | ⟨s', hs', -, ⟨-, hcore⟩ | ⟨e, rest, -, he⟩⟩
  · exact h
  · exact inv_coreStep (h.congr (by rw [hs']) (by rw [hs'])) hcore
  · exact inv_hostEvent (h.congr (by rw [hs']) (by rw [hs'])) he

end Sys2Proof.Machine
end

section
/-! PROOFS. The position in the noise stream (spec/42_awgn_channel.md R186, R188; spec/10_state.md R44): what leaves
NOISE_CTR as it is, and the events that reach NOISE_SEED. -/

namespace Sys2Proof.Machine

@[simp] theorem raise_noiseCtr (s : State) (code : ErrorKind) (info op : BitVec 8) :
    (s.raise code info op).regs.noiseCtr = s.regs.noiseCtr := by
  rw [raise_eq]

@[simp] theorem complete_noiseCtr (s : State) : s.complete.regs.noiseCtr = s.regs.noiseCtr := rfl

theorem perform_noiseCtr {effect s : State} (h : effect.regs.noiseCtr = s.regs.noiseCtr) (op : BitVec 8)
    (check : Option (ErrorKind × BitVec 8)) : (perform op check effect s).regs.noiseCtr = s.regs.noiseCtr := by
  rcases perform_cases op check effect s with ⟨code, info, -, hp⟩ | ⟨-, hp⟩ <;> simp [hp, h]

/-- The core step of an ADD_NOISE moves NOISE_CTR by NSAMPLES where it succeeds, and leaves it where it raises
(42_awgn_channel.md R188). -/
theorem addNoise_noiseCtr (p : Params) (s : State) :
    (addNoise p s).regs.noiseCtr = s.regs.noiseCtr ∨
      (addNoise p s).regs.status.rxValid = true ∧
        (addNoise p s).regs.noiseCtr = s.regs.noiseCtr + s.regs.nsamples.zeroExtend 64 := by
  unfold addNoise
  rcases perform_cases 0x03#8 (addNoiseCheck s.regs (channelInput p s).1) (addNoiseEffect p s) s with
    ⟨code, info, -, hp⟩ | ⟨-, hp⟩ <;> rw [hp]
  · exact .inl (raise_noiseCtr s code info _)
  · exact .inr ⟨rfl, rfl⟩

/-- What each command does to NOISE_CTR. -/
theorem exec_command_noiseCtr {s t : State} {i : Instr} (hi : i.isCommand = true) (hexec : exec i s = .next t) :
    t.regs.noiseCtr = s.regs.noiseCtr ∨
      (i = .addNoise ∧ t.regs.status.rxValid = true ∧
        t.regs.noiseCtr = s.regs.noiseCtr + s.regs.nsamples.zeroExtend 64) ∨
      (i = .softReset ∧ t.regs.noiseCtr = 0#64) := by
  cases i <;> cases hexec
  case addNoise => exact (addNoise_noiseCtr Config.params s).imp_right fun hmove => .inl ⟨rfl, hmove⟩
  case softReset => exact .inr (.inr ⟨rfl, rfl⟩)
  case nop => exact .inl rfl
  case clearError => exact .inl rfl
  case config => exact .inl (perform_noiseCtr (by rfl) _ _)
  case modulate => exact .inl (perform_noiseCtr (by rfl) _ _)
  case demodulate => exact .inl (perform_noiseCtr (by rfl) _ _)
  case computeBer => exact .inl (perform_noiseCtr (by rfl) _ _)
  case wr => cases hi
  case rd => cases hi

/-- What a core step does to NOISE_CTR, by the latched command. -/
theorem coreStep_noiseCtr {s t : State} (h : coreStep s = .next t) :
    t.regs.noiseCtr = s.regs.noiseCtr ∨
      (decodeCommand s.cmdLatch = .ok .addNoise ∧ t.regs.status.rxValid = true ∧
        t.regs.noiseCtr = s.regs.noiseCtr + s.regs.nsamples.zeroExtend 64) ∨
      (decodeCommand s.cmdLatch = .ok .softReset ∧ t.regs.noiseCtr = 0#64) := by
  rcases coreStep_cases h with ⟨i, hi, hdec, hexec⟩ | ⟨info, rfl⟩
  · rcases exec_command_noiseCtr hi hexec with hkeep | ⟨rfl, hmove⟩ | ⟨rfl, hzero⟩
    · exact .inl hkeep
    · exact .inr (.inl ⟨hdec, hmove⟩)
    · exact .inr (.inr ⟨hdec, hzero⟩)
  · exact .inl (raise_noiseCtr s _ _ _)

theorem store_noiseCtr {r : Reg} (hr : r ≠ .noiseSeed) (v : Word) (g : Regs) : (r.store v g).noiseCtr = g.noiseCtr := by
  cases r with
  | noiseSeed => exact absurd rfl hr
  | _ => rfl

/-- A host write leaves NOISE_CTR, or it is a write of NOISE_SEED while BUSY = 0, which zeroes it (10_state.md R44). -/
theorem writeEffect_noiseCtr {s t : State} {u : Target} {v : Word} (h : WriteEffect s u v t) :
    t.regs.noiseCtr = s.regs.noiseCtr ∨
      (t.regs.noiseCtr = 0#64 ∧ s.regs.status.busy = false ∧ u = .reg .noiseSeed) := by
  cases h with
  | ignored | bitStored | accepted => exact .inl rfl
  | recorded => exact .inl (by simp [record_eq])
  | stored r ht _ hb =>
    by_cases hr : r = .noiseSeed
    · subst hr
      exact .inr ⟨rfl, by simpa using hb, ht⟩
    · exact .inl (store_noiseCtr hr v s.regs)

/-- An event of the host that writes v to the word address a: a transaction or a whole-word access on a byte bridge
(30_encoding.md R111, 20_memory.md R86). -/
inductive HostEvent.Writes (a : Addr) (v : Word) : HostEvent → Prop where
  | transaction {t : Packed} (h : decodeTransaction t = some (.wr a v)) : Writes a v (.transaction t)
  | bridge {b : BitVec 23} {bytes : List (BitVec 8)} (hlen : bytes.length = 8) (hb : b.toNat = 8 * a.toNat) :
      Writes a v (.bridgeWrite b bytes)

theorem toNat_eq_of_bridgeWellFormed {b : BitVec 23} {size : ℕ} (h : bridgeWellFormed b size = true) :
    size = 8 ∧ b.toNat = 8 * (wordAddrOfByte b).toNat := by
  have hlt := b.isLt
  simp only [bridgeWellFormed, Bool.and_eq_true, beq_iff_eq] at h
  rw [wordAddrOfByte, BitVec.extractLsb'_toNat, Nat.shiftRight_eq_div_pow]
  omega

/-- Everything an event at the block's outside can do, with the event that does it. -/
theorem hostEvent_cases_of_event {e : HostEvent} {s t : State} (h : hostEvent e s = .next t) :
    (∃ a v, e.Writes a v ∧ WriteEffect s (target Config.params a) v t) ∨
      (∃ a, t = readPort Config.params a s) ∨ (e = .powerOnReset ∧ t = s.powerOnReset) := by
  unfold hostEvent at h
  split at h
  · split at h
    · next i hi =>
      rcases decodeTransaction_cases hi with ⟨a, v, rfl⟩ | ⟨a, rfl⟩ <;> cases h
      · exact .inl ⟨a, v, .transaction hi, hostWrite_effect s _ v⟩
      · exact .inr (.inl ⟨a, rfl⟩)
    · cases h
  · split at h <;> cases h
    exact .inr (.inl ⟨_, rfl⟩)
  · split at h <;> cases h
    next hw =>
    obtain ⟨hlen, hb⟩ := toNat_eq_of_bridgeWellFormed hw
    exact .inl ⟨_, _, .bridge hlen hb, hostWrite_effect s _ _⟩
  · cases h
    exact .inr (.inr ⟨rfl, rfl⟩)

theorem hostEvent_noiseCtr {e : HostEvent} {s t : State} (h : hostEvent e s = .next t) :
    t.regs.noiseCtr = s.regs.noiseCtr ∨
      (t.regs.noiseCtr = 0#64 ∧
        (e = .powerOnReset ∨ s.regs.status.busy = false ∧ ∃ v, e.Writes 0x017#20 v)) := by
  rcases hostEvent_cases_of_event h with ⟨a, v, hwrites, heffect⟩ | ⟨a, rfl⟩ | ⟨he, rfl⟩
  · rcases writeEffect_noiseCtr heffect with hkeep | ⟨hzero, hb, ht⟩
    · exact .inl hkeep
    · obtain rfl : a = 0x017#20 := BitVec.eq_of_toNat_eq ((target_eq_reg_iff _ _ _).1 ht)
      exact .inr ⟨hzero, .inr ⟨hb, v, hwrites⟩⟩
  · obtain ⟨v, n, hread, -⟩ := readPort_eq Config.params a s
    exact .inl (by rw [hread])
  · exact .inr ⟨rfl, .inl he⟩

/-- Settles O43, over everything that a step can do (`step_cases`). -/
theorem noiseCounterMovesOnlyAsStated : Obligations.NoiseCounterMovesOnlyAsStated := by
  intro s t hstep
  rcases step_cases hstep with rfl | ⟨s', hs', -, ⟨hb, hcore⟩ | ⟨e, rest, hin, he⟩⟩
  · exact .inl rfl
  · have hlatch : s'.cmdLatch = s.cmdLatch := by rw [hs']
    have hregs : s'.regs = s.regs := by rw [hs']
    have hmove := coreStep_noiseCtr hcore
    rw [hlatch, hregs] at hmove
    rcases hmove with hkeep | ⟨hdec, hrx, hctr⟩ | ⟨hdec, hzero⟩
    · exact .inl hkeep
    · exact .inr (.inl ⟨hdec, hb, hrx, hctr⟩)
    · exact .inr (.inr ⟨hzero, .inl ⟨hdec, hb⟩⟩)
  · have hregs : s'.regs = s.regs := by rw [hs']
    rcases hostEvent_noiseCtr he with hkeep | ⟨hzero, rfl | ⟨hb, v, hwrites⟩⟩
    · exact .inl (hkeep.trans (congrArg Regs.noiseCtr hregs))
    · exact .inr (.inr ⟨hzero, .inr (.inl ⟨rest, hin⟩)⟩)
    · have hbusy : s.regs.status.busy = false := hregs ▸ hb
      cases hwrites with
      | transaction hdec => exact .inr (.inr ⟨hzero, .inr (.inr (.inl ⟨hbusy, _, v, rest, hin, hdec⟩))⟩)
      | bridge hlen hbyte => exact .inr (.inr ⟨hzero, .inr (.inr (.inr ⟨hbusy, _, _, rest, hin, hlen, hbyte⟩))⟩)

end Sys2Proof.Machine
end

section
/-! PROOFS. The two agents and the port while BUSY = 1 (spec/20_memory.md R80 to R97, spec/30_encoding.md R114, R115): which
agent moves, what a byte bridge carries, and what a host access can do beside a command in flight. -/

namespace Sys2Proof.Machine

/-! ### Which agent moves, and what its step is -/

section Turns

variable {p : Params} {s s' : State}

theorem nextAgent_of_inbox_nil (hb : s.regs.status.busy = true) (hi : s.inbox = []) :
    nextAgent p s = some (.core, s) := by
  simp only [nextAgent, hb, hi]

theorem nextAgent_of_idle (hb : s.regs.status.busy = false) (hi : s.inbox ≠ []) :
    nextAgent p s = some (.host, s) := by
  obtain ⟨e, rest, hi⟩ := List.exists_cons_of_ne_nil hi
  simp only [nextAgent, hb, hi]

/-- Where both agents can move, the head of the schedule decides (20_memory.md R92). -/
theorem nextAgent_of_schedule {e : HostEvent} {rest : List HostEvent} {a : Agent} {later : List Agent}
    (hb : s.regs.status.busy = true) (hi : s.inbox = e :: rest) (hs : s.schedule = a :: later) :
    nextAgent p s = some (a, { s with schedule := later }) := by
  simp only [nextAgent, hb, hi, hs]

/-- While BUSY = 1 some agent moves (70_reset_and_hazards.md R294). -/
theorem exists_nextAgent_of_busy (p : Params) (hb : s.regs.status.busy = true) :
    ∃ a s', nextAgent p s = some (a, s') := by
  cases hi : s.inbox with
  | nil => exact ⟨_, _, nextAgent_of_inbox_nil hb hi⟩
  | cons e rest =>
    cases hs : s.schedule with
    | nil => exact ⟨_, _, by simp only [nextAgent, hb, hi, hs]; rfl⟩
    | cons a later => exact ⟨_, _, nextAgent_of_schedule hb hi hs⟩

theorem step_of_core (h : nextAgent Config.params s = some (.core, s')) : step s = coreStep s' := by
  simp only [step, agentStep, h]

theorem step_of_host (h : nextAgent Config.params s = some (.host, s')) : step s = hostStep s' := by
  simp only [step, agentStep, h]

theorem coreStep_of_decode {i : Instr} (h : decodeCommand s.cmdLatch = .ok i) : coreStep s = exec i s := by
  simp only [coreStep, h]

theorem hostStep_cons {e : HostEvent} {rest : List HostEvent} (h : s.inbox = e :: rest) :
    hostStep s = hostEvent e { s with inbox := rest } := by
  simp only [hostStep, h]

theorem hostEvent_transaction {t : Packed} {i : Instr} (h : decodeTransaction t = some i) (s : State) :
    hostEvent (.transaction t) s = exec i s := by
  simp only [hostEvent, h]

end Turns

/-- Settles O4, by `nextAgent_frame` for what the turn costs. -/
theorem stepRunsLatchedCommand : Obligations.StepRunsLatchedCommand := by
  refine ⟨fun s s' i hnext hdec => ?_, fun s => nextAgent_of_inbox_nil⟩
  obtain ⟨hframe, -⟩ := nextAgent_frame hnext
  have hlatch : s'.cmdLatch = s.cmdLatch := by rw [hframe]
  exact ⟨hframe, (step_of_core hnext).trans (coreStep_of_decode (by rw [hlatch, hdec]))⟩

/-- Settles O5, by `nextAgent_frame` for what the turn costs. -/
theorem stepRunsHostTransaction : Obligations.StepRunsHostTransaction := by
  refine ⟨fun s s' t rest i hnext hin hdec => ?_, fun s => nextAgent_of_idle⟩
  obtain ⟨hframe, -⟩ := nextAgent_frame hnext
  have hin' : s'.inbox = .transaction t :: rest := by rw [hframe, hin]
  exact ⟨hframe, by rw [step_of_host hnext, hostStep_cons hin', hostEvent_transaction hdec]⟩

/-- Settles O6, by the agent at the head of the schedule. -/
theorem eitherAgentMayMoveFirst : Obligations.EitherAgentMayMoveFirst := by
  intro s a e rest later hb hi hs
  have hnext := nextAgent_of_schedule (p := Config.params) hb hi hs
  cases a with
  | core => exact step_of_core hnext
  | host => exact (step_of_host hnext).trans (hostStep_cons hi)

/-! ### The address map and the byte bridge -/

/-- Settles O23, by which side of the capacity the offset is on. -/
theorem addressMapIsFaithful : Obligations.AddressMapIsFaithful := by
  refine ⟨fun p a w i ha hi => ?_, target_reg⟩
  split
  · next hlt => exact target_elem p a hlt ha
  · next hge => exact target_reserved_of_past_capacity p (w := w) (by omega) (by omega)

/-- Byte j of a word on a bridge is bits `[8j+7:8j]` (20_memory.md R86). -/
theorem extractLsb'_wordOfBytes {bytes : List (BitVec 8)} (hlen : bytes.length ≤ 8) {j : ℕ} (hj : j < bytes.length) :
    (wordOfBytes bytes).extractLsb' (8 * j) 8 = bytes[j] := by
  induction bytes generalizing j with
  | nil => cases hj
  | cons b rest ih =>
    rw [List.length_cons] at hlen hj
    cases j with
    | zero =>
      ext k hk
      simp [wordOfBytes, hk, show k < 64 by omega]
    | succ j =>
      rw [List.getElem_cons_succ, ← ih (by omega) (by omega)]
      ext k hk
      have hhigh : b.getLsbD (8 * (j + 1) + k) = false := BitVec.getLsbD_of_ge _ _ (by omega)
      have hshift : 8 * (j + 1) + k - 8 = 8 * j + k := by omega
      simp only [BitVec.getElem_extractLsb', wordOfBytes, BitVec.getLsbD_or, BitVec.getLsbD_setWidth, hhigh,
        BitVec.getLsbD_shiftLeft, hshift]
      simp [show 8 * (j + 1) + k < 64 by omega, show 8 ≤ 8 * (j + 1) + k by omega]

theorem wordAddrOfByte_eq (a : BitVec 23) : wordAddrOfByte a = BitVec.ofNat 20 (a.toNat / 8) := by
  rw [wordAddrOfByte, BitVec.extractLsb', Nat.shiftRight_eq_div_pow]

theorem bridgeWellFormed_iff (a : BitVec 23) (size : ℕ) :
    bridgeWellFormed a size = true ↔ size = 8 ∧ a.toNat % 8 = 0 := by
  simp [bridgeWellFormed]

theorem not_bridgeWellFormed {a : BitVec 23} {size : ℕ} (h : size ≠ 8 ∨ a.toNat % 8 ≠ 0) :
    ¬bridgeWellFormed a size = true := by
  rw [bridgeWellFormed_iff]
  omega

/-- Settles O9: the word is `wordOfBytes`, and an access is performed exactly where it is well formed. -/
theorem byteBridgeIsLittleEndian : Obligations.ByteBridgeIsLittleEndian := by
  refine ⟨fun a bytes s ha hlen => ⟨wordOfBytes bytes, fun j => extractLsb'_wordOfBytes hlen.le, ?_⟩,
    fun a s ha => ?_, fun a size s h => ?_, fun a bytes s h => ?_⟩
  · rw [hostEvent, if_pos ((bridgeWellFormed_iff _ _).2 ⟨hlen, ha⟩), wordAddrOfByte_eq]
  · rw [hostEvent, if_pos ((bridgeWellFormed_iff _ _).2 ⟨rfl, ha⟩), wordAddrOfByte_eq]
  · rw [hostEvent, if_neg (not_bridgeWellFormed h)]
  · rw [hostEvent, if_neg (not_bridgeWellFormed h)]

/-! ### Reads and writes while BUSY = 1 -/

/-- Settles O12, by `readPort_eq`. -/
theorem readsHaveNoSideEffect : Obligations.ReadsHaveNoSideEffect := by
  intro a s
  obtain ⟨v, n, hread, hn⟩ := readPort_eq Config.params a s
  exact ⟨v, n, congrArg _ hread, by omega⟩

/-- The registers that are read exactly while BUSY = 1 (20_memory.md R88). -/
theorem stable_reg_iff (r : Reg) :
    (Target.reg r).stable = true ↔ r ∈ [Reg.id, .caps, .status, .errCode, .intStatus, .intEnable] := by
  cases r <;> simp [Target.stable]

section Accesses

variable {s : State}

/-- The read of a register of `stable_reg_iff`, busy or idle. -/
theorem exec_rd_stable_reg {a : Addr} {r : Reg} (ht : target Config.params a = .reg r)
    (hr : (Target.reg r).stable = true) : exec (.rd a) s = .next (s.respond (r.value Config.params s.regs)) := by
  rw [exec, execRd, readPort_held]
  simp [State.held, ht, hr]

/-- The read of any other register or of an element while BUSY = 1 is a draw (20_memory.md R88). -/
theorem exec_rd_unstable (hb : s.regs.status.busy = true) {a : Addr} {t : Target} (ht : target Config.params a = t)
    (hstable : ¬t.stable = true) :
    exec (.rd a) s = .next { s.respond (t.draw Config.params s.draws) with draws := s.draws + 1 } := by
  rw [exec, execRd, readPort_draw, ht]
  simp [State.held, hb, ht, hstable]

/-- A write while BUSY = 1 to what a host can write, the interrupt registers aside, is discarded with E_BUSY (20_memory.md
R89). -/
theorem exec_wr_discarded (hb : s.regs.status.busy = true) {a : Addr} {t : Target} (ht : target Config.params a = t)
    (hw : t.writable = true) (hstatus : t ≠ .reg .intStatus) (henable : t ≠ .reg .intEnable) (v : Word) :
    exec (.wr a v) s = .next (s.record .busy 0x00#8 0xFF#8) := by
  rw [exec, execWr, ht, State.hostWrite, if_pos hb]
  unfold State.hostWriteBusy
  split
  · exact absurd rfl hstatus
  · exact absurd rfl henable
  · rw [if_pos hw]

end Accesses

/-- Settles O16: a read is exact where its target is stable, and a draw elsewhere. -/
theorem busyReads : Obligations.BusyReads := by
  intro s a hb
  refine ⟨fun r hr ha => ?_, exec_rd_reserved, fun r hr ha => ?_, fun w i hi ha => ?_⟩
  · exact exec_rd_stable_reg (target_reg _ a r ha) ((stable_reg_iff r).2 hr)
  · exact exec_rd_unstable hb (target_reg _ a r ha) (mt (stable_reg_iff r).1 hr)
  · exact draw_elem w i s.draws ▸ exec_rd_unstable hb (target_elem _ a hi ha) nofun

/-- Settles O26, by the kinds of target of R89. -/
theorem busyWrites : Obligations.BusyWrites := by
  intro s a v hb
  obtain ⟨hstatus, henable⟩ := interruptRegisterWrites s v
  refine ⟨fun ha => ha ▸ hstatus, fun ha => ha ▸ henable, ?_, ?_⟩
  · rintro (ht | ⟨r, hr, ht⟩)
    · exact exec_wr_of_not_writable ht rfl s v
    · exact exec_wr_of_not_writable ht (by simp [Target.writable, hr]) s v
  · rintro (⟨r, hr, ht⟩ | ⟨i, ht⟩)
    · fin_cases hr <;> exact exec_wr_discarded hb ht rfl nofun nofun v
    · exact exec_wr_discarded hb ht rfl nofun nofun v

/-! ### The command in flight -/

/-- The registers r with the error record and the interrupt registers of r': what a host access can change of r while
BUSY = 1 (20_memory.md R89). -/
def Regs.withErrorsOf (r r' : Regs) : Regs :=
  { r with
    status := { r.status with err := r'.status.err, errMulti := r'.status.errMulti }
    errCode := r'.errCode, intStatus := r'.intStatus, intEnable := r'.intEnable }

@[simp] theorem withErrorsOf_busy (r r' : Regs) : (r.withErrorsOf r').status.busy = r.status.busy := rfl

/-- Every transaction completes while BUSY = 1, and leaves what the command in flight depends on (20_memory.md R95). -/
theorem exec_transaction_of_busy {s : State} {t : Packed} {i : Instr} (hb : s.regs.status.busy = true)
    (hdec : decodeTransaction t = some i) :
    ∃ u, exec i s = .next u ∧ u.cmdLatch = s.cmdLatch ∧ u.mem = s.mem ∧ u.inbox = s.inbox ∧
      u.regs = s.regs.withErrorsOf u.regs := by
  rcases decodeTransaction_cases hdec with ⟨a, v, rfl⟩ | ⟨a, rfl⟩
  · obtain ⟨u, hexec, -, -, hmem, -, hinbox, -, -, hlatch, -, hregs, -⟩ := writesCompleteWithFrame a v s
    exact ⟨u, hexec, (hlatch (.inr hb)).1, hmem (.inl hb), hinbox, hregs hb⟩
  · obtain ⟨v, n, hexec, -⟩ := readsHaveNoSideEffect a s
    exact ⟨_, hexec, rfl, rfl, rfl, rfl⟩

/-- Settles O27, by `exec_transaction_of_busy`. -/
theorem busyProtectsCommand : Obligations.BusyProtectsCommand := by
  intro s t p hb hstep
  cases hdec : decodeTransaction p with
  | none => simp [hostEvent, hdec] at hstep
  | some i =>
    obtain ⟨u, hexec, hlatch, hmem, -, hregs⟩ := exec_transaction_of_busy hb hdec
    rw [hostEvent_transaction hdec, hexec] at hstep
    cases hstep
    exact ⟨hlatch, hmem, hregs⟩

/-! ### The core step is reached -/

theorem raise_busy (s : State) (code : ErrorKind) (info op : BitVec 8) :
    (s.raise code info op).regs.status.busy = false := rfl

theorem perform_busy (op : BitVec 8) (check : Option (ErrorKind × BitVec 8)) (effect s : State) :
    (perform op check effect s).regs.status.busy = false := by
  rcases perform_cases op check effect s with ⟨code, info, -, hp⟩ | ⟨-, hp⟩ <;> rw [hp]
  · exact raise_busy s code info op
  · rfl

/-- Every command completes and clears BUSY (30_encoding.md R115). -/
theorem exec_command_busy {i : Instr} (hi : i.isCommand = true) (s : State) :
    ∃ u, exec i s = .next u ∧ u.regs.status.busy = false := by
  cases i with
  | nop | clearError | softReset => exact ⟨_, rfl, rfl⟩
  | config | modulate | addNoise | demodulate | computeBer => exact ⟨_, rfl, perform_busy _ _ _ _⟩
  | wr | rd => cases hi

/-- Every core step completes and clears BUSY, an illegal command word's included (30_encoding.md R115, R116). -/
theorem coreStep_busy (s : State) : ∃ u, coreStep s = .next u ∧ u.regs.status.busy = false := by
  cases hdec : decodeCommand s.cmdLatch with
  | ok i => exact coreStep_of_decode hdec ▸ exec_command_busy (decodeCommand_isCommand hdec) s
  | error why => exact ⟨_, by simp only [coreStep, hdec]; rfl, raise_busy s _ _ _⟩

/-- A step of the host with a transaction while BUSY = 1 takes it from the host's program and leaves the command in
flight. -/
theorem step_of_host_of_busy {s s' : State} {t : Packed} {i : Instr} {rest : List HostEvent}
    (hb : s.regs.status.busy = true) (hnext : nextAgent Config.params s = some (.host, s'))
    (hin : s.inbox = .transaction t :: rest) (hdec : decodeTransaction t = some i) :
    ∃ u, step s = .next u ∧ u.regs.status.busy = true ∧ u.cmdLatch = s.cmdLatch ∧ u.inbox = rest := by
  obtain ⟨hframe, hstep⟩ := stepRunsHostTransaction.1 s s' t rest i hnext hin hdec
  have hregs' : s'.regs = s.regs := by rw [hframe]
  have hlatch' : s'.cmdLatch = s.cmdLatch := by rw [hframe]
  obtain ⟨u, hexec, hlatch, -, hinbox, hregs⟩ :=
    exec_transaction_of_busy (s := { s' with inbox := rest }) (by rw [hregs', hb]) hdec
  exact ⟨u, hstep.trans hexec, by rw [hregs, withErrorsOf_busy, hregs', hb], hlatch.trans hlatch', hinbox⟩

theorem run_succ_of_step {s t : State} (h : step s = .next t) (k : ℕ) : core.run (k + 1) s = core.run k t := by
  change core.step s = .next t at h
  simp only [Host.Core.run, h]

/-- Settles O8, by induction on the host's program: each step is the core's, or takes one transaction. -/
theorem acceptedCommandIsStepped : Obligations.AcceptedCommandIsStepped := by
  intro s hb hall
  generalize hin : s.inbox = events at hall ⊢
  induction events generalizing s with
  | nil =>
    have hnext := nextAgent_of_inbox_nil (p := Config.params) hb hin
    obtain ⟨u, hcore, hidle⟩ := coreStep_busy s
    exact ⟨0, s, s, u, le_refl _, rfl, rfl, hnext, (step_of_core hnext).trans hcore, hidle⟩
  | cons e rest ih =>
    obtain ⟨agent, s', hnext⟩ := exists_nextAgent_of_busy Config.params hb
    cases agent with
    | core =>
      obtain ⟨u, hcore, hidle⟩ := coreStep_busy s'
      exact ⟨0, s, s', u, Nat.zero_le _, rfl, rfl, hnext, (step_of_core hnext).trans hcore, hidle⟩
    | host =>
      obtain ⟨⟨t, i, rfl, hdec⟩, hrest⟩ := List.forall_mem_cons.1 hall
      obtain ⟨s₁, hstep, hb₁, hlatch₁, hin₁⟩ := step_of_host_of_busy hb hnext hin hdec
      obtain ⟨k, v, v', u, hk, hrun, hlatch, hcore⟩ := ih s₁ hb₁ hin₁ hrest
      exact ⟨k + 1, v, v', u, Nat.succ_le_succ hk, (run_succ_of_step hstep k).trans hrun, hlatch.trans hlatch₁, hcore⟩

end Sys2Proof.Machine
end

section
/-! PROOFS. The encoding (spec/30_encoding.md R110 to R123): the decoder and the encoder are inverse at both levels, which
command words are illegal, what a write to CMD accepts, and how a core step ends. -/

namespace Sys2Proof.Machine

/-! ### Command words -/

theorem commandWord_eq_iff (op : BitVec 8) (w : Word) : commandWord op = w ↔ opOf w = op ∧ resOf w = 0#56 := by
  simp only [commandWord, opOf, resOf, BitVec.toNat_eq, BitVec.toNat_setWidth, BitVec.extractLsb'_toNat,
    BitVec.toNat_ofNat, Nat.shiftRight_eq_div_pow]
  omega

theorem opcodeMap_encodes : ∀ c ∈ opcodeMap, encode c.2 = .command (commandWord c.1) := by decide

theorem lookup_of_mem_opcodeMap : ∀ c ∈ opcodeMap, opcodeMap.lookup c.1 = some c.2 := by decide

/-- The words that encode a command: its opcode in the map, and RES zero (30_encoding.md R112, R113). -/
theorem encode_eq_command_iff (i : Instr) (w : Word) :
    encode i = .command w ↔ opcodeMap.lookup (opOf w) = some i ∧ resOf w = 0#56 := by
  constructor
  · intro h
    have hmem : ∃ op, (op, i) ∈ opcodeMap ∧ commandWord op = w := by
      cases i <;> cases h <;> exact ⟨_, by decide, rfl⟩
    obtain ⟨op, hop, hw⟩ := hmem
    obtain ⟨rfl, hres⟩ := (commandWord_eq_iff op w).1 hw
    exact ⟨lookup_of_mem_opcodeMap _ hop, hres⟩
  · rintro ⟨hop, hres⟩
    obtain ⟨l₁, l₂, hmap, -⟩ := List.lookup_eq_some_iff.1 hop
    have hmem : (opOf w, i) ∈ opcodeMap := by simp [hmap]
    rw [opcodeMap_encodes _ hmem, (commandWord_eq_iff _ w).2 ⟨rfl, hres⟩]

theorem decodeCommand_eq_ok_iff (w : Word) (i : Instr) : decodeCommand w = .ok i ↔ encode i = .command w := by
  rw [encode_eq_command_iff, decodeCommand]
  cases opcodeMap.lookup (opOf w) with
  | none => simp
  | some j => by_cases hres : resOf w = 0#56 <;> simp [hres]

/-! ### Packed transactions -/

theorem toNat_packTransaction (d : Bool) (a : Addr) (v : Word) :
    (packTransaction d a v).toNat = d.toNat * 2 ^ 84 + a.toNat * 2 ^ 64 + v.toNat := by
  rw [packTransaction, BitVec.toNat_append, BitVec.toNat_append, BitVec.toNat_ofBool,
    ← Nat.shiftLeft_add_eq_or_of_lt v.isLt, ← Nat.shiftLeft_add_eq_or_of_lt a.isLt, Nat.shiftLeft_eq, Nat.shiftLeft_eq]
  omega

theorem dirOf_eq_iff (t : Packed) (d : Bool) : dirOf t = d ↔ t.toNat / 2 ^ 84 = d.toNat := by
  have ht := t.isLt
  rw [dirOf, BitVec.getLsbD, Nat.testBit_eq_decide_div_mod_eq]
  cases d <;> simp <;> omega

theorem packTransaction_eq_iff (d : Bool) (a : Addr) (v : Word) (t : Packed) :
    packTransaction d a v = t ↔ dirOf t = d ∧ addrOf t = a ∧ dataOf t = v := by
  simp only [dirOf_eq_iff, addrOf, dataOf, BitVec.toNat_eq, toNat_packTransaction, BitVec.extractLsb'_toNat,
    Nat.shiftRight_eq_div_pow]
  omega

/-- A pattern decodes to the transaction that it encodes, and a read with data to nothing (30_encoding.md R111). -/
theorem decodeTransaction_eq_some_iff (t : Packed) (i : Instr) :
    decodeTransaction t = some i ↔ encode i = .transaction t := by
  unfold decodeTransaction
  cases i with
  | wr a v =>
    rw [encode, Encoded.transaction.injEq, packTransaction_eq_iff]
    split_ifs <;> simp_all
  | rd a =>
    rw [encode, Encoded.transaction.injEq, packTransaction_eq_iff]
    split_ifs <;> simp_all
  | _ => split_ifs <;> simp [encode]

/-- Settles O1, level by level. -/
theorem decodeInvertsEncode : Obligations.DecodeInvertsEncode := by
  intro e i
  cases e with
  | command w =>
    rw [← decodeCommand_eq_ok_iff, decode]
    cases decodeCommand w <;> simp [Except.mapError]
  | transaction t =>
    rw [← decodeTransaction_eq_some_iff, decode]
    cases decodeTransaction t <;> simp

/-! ### Illegal command words -/

/-- The opcodes outside the opcode map (30_encoding.md R116). -/
theorem lookup_opcodeMap_eq_none_iff (op : BitVec 8) :
    opcodeMap.lookup op = none ↔ (0x06 ≤ op.toNat ∧ op.toNat ≤ 0x0D) ∨ 0x10 ≤ op.toNat := by
  simp [List.lookup_eq_none_iff, opcodeMap, BitVec.toNat_eq]
  omega

theorem coreStep_of_decode_error {s : State} {why : IllegalCommand} (h : decodeCommand s.cmdLatch = .error why) :
    coreStep s = .next (s.raise .illegal why.info (opOf s.cmdLatch)) := by
  simp only [coreStep, h]

theorem decodeCommand_undefined {w : Word} (h : opcodeMap.lookup (opOf w) = none) :
    decodeCommand w = .error .undefinedOpcode := by
  simp only [decodeCommand, h]

theorem decodeCommand_reserved {w : Word} (h : opcodeMap.lookup (opOf w) ≠ none) (hres : resOf w ≠ 0#56) :
    decodeCommand w = .error .reservedBits := by
  obtain ⟨i, hi⟩ := Option.ne_none_iff_exists'.1 h
  simp only [decodeCommand, hi, hres, if_false]

/-- Settles O3: an opcode is undefined exactly in the ranges of R116, and 0 is the encoding of NOP. -/
theorem illegalCommandWordsRaise : Obligations.IllegalCommandWordsRaise := by
  refine ⟨fun s hop => ?_, fun s hop hres => ?_, fun w => ?_⟩
  · exact coreStep_of_decode_error (decodeCommand_undefined ((lookup_opcodeMap_eq_none_iff _).2 hop))
  · refine coreStep_of_decode_error (decodeCommand_reserved (fun h => ?_) hres)
    rw [lookup_opcodeMap_eq_none_iff] at h
    omega
  · rw [decodeCommand_eq_ok_iff, encode, Encoded.command.injEq, eq_comm]
    rfl

/-! ### Acceptance -/

/-- The write of CMD while BUSY = 0. -/
theorem exec_wr_cmd {s : State} (hb : s.regs.status.busy = false) (v : Word) :
    exec (.wr 0x002#20 v) s = .next (s.accept v) := by
  rw [exec, execWr, target_reg _ _ .cmd rfl, State.hostWrite, hb]
  rfl

/-- The gate on acceptance (30_encoding.md R114). -/
theorem halted_iff (err : Bool) (op : BitVec 8) :
    (err && !allowedInError op) = true ↔ err = true ∧ op ≠ 0x00#8 ∧ op ≠ 0x0E#8 ∧ op ≠ 0x0F#8 := by
  simp [allowedInError, and_assoc]

/-- Settles O25, by the gate of R114. -/
theorem commandAcceptance : Obligations.CommandAcceptance := by
  intro s v hb
  rw [exec_wr_cmd hb, State.accept]
  split
  · next h => rw [if_pos ((halted_iff _ _).2 h)]
  · next h => rw [if_neg (mt (halted_iff _ _).1 h)]; rfl

/-! ### How a core step ends -/

/-- The registers of the error record (60_exceptions.md R252) are in r' as in r. -/
def Regs.SameErrors (r r' : Regs) : Prop :=
  r'.status.err = r.status.err ∧ r'.errCode = r.errCode ∧ r'.status.errMulti = r.status.errMulti ∧
    r'.intStatus.erri = r.intStatus.erri

/-- Where its effect leaves the error record, a core step raises one error, or sets DONE and records nothing
(30_encoding.md R115, 60_exceptions.md R254). -/
theorem perform_raises_or_completes {effect s : State} (h : s.regs.SameErrors effect.regs) (op : BitVec 8)
    (check : Option (ErrorKind × BitVec 8)) :
    (∃ code info op', perform op check effect s = s.raise code info op') ∨
      ((perform op check effect s).regs.intStatus.done = true ∧
        s.regs.SameErrors (perform op check effect s).regs) := by
  rcases perform_cases op check effect s with ⟨code, info, -, hp⟩ | ⟨-, hp⟩ <;> rw [hp]
  · exact .inl ⟨code, info, op, rfl⟩
  · exact .inr ⟨rfl, h⟩

/-- How each command ends: CLEAR_ERROR and SOFT_RESET clear the error record, and the others keep it or raise. -/
theorem exec_command_raises_or_completes {i : Instr} (hi : i.isCommand = true) {s t : State} (h : exec i s = .next t) :
    (∃ code info op, t = s.raise code info op) ∨
      ((t.regs.intStatus.done = true ∨ i = .softReset) ∧
        (t.regs.status.err = false ∨ s.regs.SameErrors t.regs)) := by
  cases i <;> cases h
  case nop => exact .inr ⟨.inl rfl, .inr ⟨rfl, rfl, rfl, rfl⟩⟩
  case clearError => exact .inr ⟨.inl rfl, .inl rfl⟩
  case softReset => exact .inr ⟨.inr rfl, .inl rfl⟩
  case wr | rd => cases hi
  case config | modulate | addNoise | demodulate | computeBer =>
    exact .imp_right (.imp .inl .inr) (perform_raises_or_completes (by exact ⟨rfl, rfl, rfl, rfl⟩) _ _)

/-- Settles O29, by `exec_command_busy` and `exec_command_raises_or_completes`. -/
theorem coreStepsAreAllOrNothing : Obligations.CoreStepsAreAllOrNothing := by
  intro i s hi
  obtain ⟨t, hexec, hbusy⟩ := exec_command_busy hi s
  exact ⟨t, hexec, hbusy, exec_command_raises_or_completes hi hexec⟩

/-! ### The worked encodings -/

theorem r64_half : r64 (1 / 2 : ℚ) = 0x3FE0000000000000#64 := by decide +kernel

/-- Settles O2: the word 0x102 has the defined opcode 0x02 and reserved bits that are not 0. -/
theorem workedEncodingsDecode : Obligations.WorkedEncodingsDecode := by
  refine ⟨by decide, (decodeCommand_eq_ok_iff _ _).2 (by decide), r64_half, rfl,
    fun p hp => target_elem p _ (w := .bitsOut) hp rfl, by decide, fun s hs => ?_⟩
  have hdec : decodeCommand s.cmdLatch = .error .reservedBits :=
    hs ▸ decodeCommand_reserved (by decide) (by decide)
  rw [coreStep_of_decode_error hdec, hs]
  rfl

end Sys2Proof.Machine
end

section
/-! PROOFS. CONFIG (spec/40_config.md R141 to R147): its checks in order, the time base, and the registers that it
derives. -/

namespace Sys2Proof.Machine

/-! ### The checks -/

theorem zero_parameter_iff (r : Regs) :
    (r.bitRate.toNat = 0 ∨ r.carrierFreq.toNat = 0 ∨ r.sampleRate.toNat = 0) ↔
      (r.bitRate = 0 ∨ r.carrierFreq = 0 ∨ r.sampleRate = 0) := by
  simp [BitVec.toNat_eq]

section Checks

variable {r : Regs}

theorem configCheck_of_zero (h : r.bitRate = 0 ∨ r.carrierFreq = 0 ∨ r.sampleRate = 0) :
    configCheck r = some (.config, 0x01#8) :=
  if_pos ((zero_parameter_iff r).2 h)

variable (hbr : r.bitRate ≠ 0) (hfc : r.carrierFreq ≠ 0) (hfs : r.sampleRate ≠ 0)
include hbr hfc hfs

/-- What is checked once no parameter is 0 (40_config.md R142). -/
theorem configCheck_of_ne_zero :
    configCheck r =
      if r.sampleRate.toNat < r.bitRate.toNat then some (.config, 0x02#8)
      else if r.sampleRate.toNat ≤ 2 * r.carrierFreq.toNat then some (.config, 0x03#8)
      else none :=
  if_neg fun h => ((zero_parameter_iff r).1 h).elim hbr (Or.rec hfc hfs)

theorem configCheck_of_low_rate (h : r.sampleRate.toNat < r.bitRate.toNat) :
    configCheck r = some (.config, 0x02#8) := by
  rw [configCheck_of_ne_zero hbr hfc hfs, if_pos h]

theorem configCheck_of_high_cutoff (h : r.bitRate.toNat ≤ r.sampleRate.toNat)
    (hcut : r.sampleRate.toNat ≤ 2 * r.carrierFreq.toNat) : configCheck r = some (.config, 0x03#8) := by
  rw [configCheck_of_ne_zero hbr hfc hfs, if_neg h.not_gt, if_pos hcut]

theorem configCheck_of_legal (h : r.bitRate.toNat ≤ r.sampleRate.toNat)
    (hcut : 2 * r.carrierFreq.toNat < r.sampleRate.toNat) : configCheck r = none := by
  rw [configCheck_of_ne_zero hbr hfc hfs, if_neg h.not_gt, if_neg hcut.not_ge]

end Checks

theorem exec_config_of_fails {s : State} {code : ErrorKind} {info : BitVec 8}
    (h : configCheck s.regs = some (code, info)) : exec .config s = .next (s.raise code info 0x01#8) := by
  rw [exec, execConfig, config, h]
  rfl

theorem exec_config_of_passes {s : State} (h : configCheck s.regs = none) :
    exec .config s = .next { s with regs := configRegs Config.params s.regs }.complete := by
  rw [exec, execConfig, config, h]
  rfl

/-- Settles O32, a lemma for each check. -/
theorem configChecks : Obligations.ConfigChecks := fun _ =>
  ⟨fun h => exec_config_of_fails (configCheck_of_zero h),
    fun hbr hfc hfs h => exec_config_of_fails (configCheck_of_low_rate hbr hfc hfs h),
    fun hbr hfc hfs h hcut => exec_config_of_fails (configCheck_of_high_cutoff hbr hfc hfs h hcut)⟩

/-! ### The time base -/

/-- Settles O34: M is br × (fs div br), a floor division (40_config.md R143). -/
theorem timeBaseFits : Obligations.TimeBaseFits := by
  intro br fs hbr hle hfs
  have hM : timeBase br (samplesPerBit br fs) ≤ fs := Nat.mul_div_le fs br
  exact ⟨Nat.div_pos hle hbr, hM, hM.trans_lt hfs, Nat.mul_div_eq_iff_dvd⟩

/-! ### The derived registers -/

theorem lpfBWords_get (c : Coeffs) (i : Fin 6) : (lpfBWords c).get i = r64 (c.bAt i) := by
  rw [lpfBWords, Vector.get_map, RealVal.word_eq, Coeffs.bAt]

/-- LPF_A0 is the 1 of a0, and the others hold the words of a1 to a5. -/
theorem lpfAWords_get (c : Coeffs) (i : Fin 6) : (lpfAWords c).get i = r64 (c.aAt i) := by
  rw [lpfAWords, Vector.get_ofFn, Coeffs.aAt]
  cases i using Fin.cases with
  | zero => simpa using (r64_ratCast 1).symm
  | succ j => exact RealVal.word_eq _

/-- Settles O33: the registers are those of `configSound`, and `configRegs` has the frame. -/
theorem configDerivesRegisters : Obligations.ConfigDerivesRegisters := by
  intro s hbr hfc hrate hcut
  have hfs : s.regs.sampleRate ≠ 0 := fun h => by simp [h] at hcut
  have hcheck := configCheck_of_legal hbr hfc hfs hrate hcut
  obtain ⟨-, hspb, htStep, hwn, hlpfB, hlpfA⟩ := configSound_configRegs Config.params hcheck rfl
  refine ⟨_, exec_config_of_passes hcheck, hspb, htStep, hwn, fun i => ⟨?_, ?_⟩, rfl⟩
  · exact (congrArg (·.get i) hlpfB).trans (lpfBWords_get _ i)
  · exact (congrArg (·.get i) hlpfA).trans (lpfAWords_get _ i)

end Sys2Proof.Machine
end

section
/-! PROOFS. The IDEAL filter design (spec/40_config.md R145, R146): the denominator polynomial D at 0 and at 1, and the
coefficients read off it. -/

namespace Sys2Proof.Machine

open Polynomial (C X)

/-! ### The denominator polynomial -/

theorem cutoff_pos {fc fs : ℕ} (hfc : 0 < fc) (hfs : 2 * fc < fs) : 0 < cutoff fc fs := by
  have hfs0 : (0 : ℝ) < fs := by exact_mod_cast (by omega : 0 < fs)
  have hnyquist : (2 * fc : ℝ) < fs := by exact_mod_cast hfs
  refine Real.tan_pos_of_pos_of_lt_pi_div_two (by positivity) ?_
  rw [div_lt_iff₀ hfs0]
  linarith [mul_lt_mul_of_pos_left hnyquist Real.pi_pos]

theorem butterworth_pos (m : Fin 6) : 0 < butterworth m := by
  fin_cases m <;> simp [butterworth] <;> positivity

/-- d0 = Σ βm c^(5−m) > 0 (40_config.md R145). -/
theorem denominatorPoly_coeff_zero_pos {c : ℝ} (hc : 0 < c) : 0 < (denominatorPoly c).coeff 0 := by
  have hd0 : (denominatorPoly c).coeff 0 = ∑ m : Fin 6, butterworth m * c ^ (5 - m.val) := by
    simp [Polynomial.coeff_zero_eq_eval_zero, denominatorPoly, Polynomial.eval_finsetSum]
  rw [hd0]
  exact Finset.sum_pos (fun m _ => mul_pos (butterworth_pos m) (pow_pos hc _)) Finset.univ_nonempty

/-- At x = 1 only the term of m = 0 is left (40_config.md R146(a)). -/
theorem denominatorPoly_eval_one (c : ℝ) : (denominatorPoly c).eval 1 = 32 * c ^ 5 := by
  simp [denominatorPoly, Fin.sum_univ_succ, butterworth]
  ring

theorem denominatorPoly_natDegree_le (c : ℝ) : (denominatorPoly c).natDegree ≤ 5 := by
  refine Polynomial.natDegree_sum_le_of_forall_le _ _ fun m _ => ?_
  fin_cases m <;> compute_degree

/-- The sum of d0, …, d5 is D(1). -/
theorem sum_denominatorPoly_coeff (c : ℝ) : ∑ i : Fin 6, (denominatorPoly c).coeff i.val = 32 * c ^ 5 := by
  rw [← denominatorPoly_eval_one, Polynomial.eval_eq_sum_range' (Nat.lt_succ_of_le (denominatorPoly_natDegree_le c)),
    Finset.sum_range]
  simp

/-! ### The coefficients -/

theorem idealA_zero {c : ℝ} (hc : 0 < c) : idealA c 0 = 1 :=
  div_self (denominatorPoly_coeff_zero_pos hc).ne'

theorem sum_idealA (c : ℝ) : ∑ i : Fin 6, idealA c i.val = 32 * c ^ 5 / (denominatorPoly c).coeff 0 := by
  rw [← sum_denominatorPoly_coeff, Finset.sum_div]
  rfl

theorem sum_idealB (c : ℝ) : ∑ i : Fin 6, idealB c i.val = 32 * c ^ 5 / (denominatorPoly c).coeff 0 := by
  have hbinomial : ∑ i : Fin 6, (Nat.choose 5 i.val : ℝ) = 32 := by
    exact_mod_cast (by decide : ∑ i : Fin 6, Nat.choose 5 i.val = 32)
  rw [← hbinomial, Finset.sum_mul, Finset.sum_div]
  rfl

theorem idealB_eq_choose_mul (c : ℝ) (i : ℕ) : idealB c i = (Nat.choose 5 i : ℝ) * idealB c 0 := by
  simp [idealB, mul_div_assoc]

theorem choose_five_symm : ∀ i : Fin 6, Nat.choose 5 i.val = Nat.choose 5 (5 - i : Fin 6).val := by decide

theorem idealLpfCoeffs_bAt (fc fs : ℕ) (i : Fin 6) : (idealLpfCoeffs fc fs).bAt i = idealB (cutoff fc fs) i.val := by
  rw [Coeffs.bAt, idealLpfCoeffs, Vector.get_ofFn, RealVal.of]

/-- The stored coefficients are those of R145, a0 = 1 included. -/
theorem idealLpfCoeffs_aAt {fc fs : ℕ} (hc : 0 < cutoff fc fs) (i : Fin 6) :
    (idealLpfCoeffs fc fs).aAt i = idealA (cutoff fc fs) i.val := by
  cases i using Fin.cases with
  | zero => exact (idealA_zero hc).symm
  | succ j => rw [Coeffs.aAt, Fin.cases_succ, idealLpfCoeffs, Vector.get_ofFn, RealVal.of, Fin.val_succ]

/-- Settles O55: both sums are D(1) / d0 = 32c^5 / d0, and the numerator is b0 times the binomials. -/
theorem idealDesignProperties : Obligations.IdealDesignProperties := by
  intro fc fs hfc hfs
  have hc := cutoff_pos hfc hfs
  simp only [idealLpfCoeffs_bAt, idealLpfCoeffs_aAt hc]
  refine ⟨(sum_idealB _).trans (sum_idealA _).symm, fun i => idealB_eq_choose_mul _ i.val, fun i => ?_,
    idealA_zero hc, idealA_zero hc⟩
  rw [idealB_eq_choose_mul, choose_five_symm, ← idealB_eq_choose_mul]

end Sys2Proof.Machine
end

section
/-! PROOFS. MODULATE (spec/41_ask_modulator.md R160 to R167): its checks in order, the words that it stores, and what
these words depend on. -/

namespace Sys2Proof.Machine

/-! ### The checks -/

section Checks

variable {p : Params} {g : Regs}

theorem modulateCheck_of_not_cfgValid (hcfg : g.status.cfgValid = false) :
    modulateCheck p g = some (.precond, 0x01#8) := by
  simp [modulateCheck, hcfg]

theorem modulateCheck_of_not_finite (hcfg : g.status.cfgValid = true) (hamp : isFinite g.amplitude = false) :
    modulateCheck p g = some (.operand, 0x01#8) := by
  simp [modulateCheck, hcfg, hamp]

/-- Past the flag and the amplitude, the two capacity checks are left. -/
theorem modulateCheck_of_finite (hcfg : g.status.cfgValid = true) (hamp : isFinite g.amplitude = true) :
    modulateCheck p g =
      if p.nMax < g.nbits.toNat then some (.capacity, 0x01#8)
      else if p.lMax < g.nbits.toNat * g.spb.toNat then some (.capacity, 0x02#8) else none := by
  simp [modulateCheck, hcfg, hamp]

theorem modulateCheck_of_nMax_lt (hcfg : g.status.cfgValid = true) (hamp : isFinite g.amplitude = true)
    (hn : p.nMax < g.nbits.toNat) : modulateCheck p g = some (.capacity, 0x01#8) := by
  rw [modulateCheck_of_finite hcfg hamp, if_pos hn]

theorem modulateCheck_of_lMax_lt (hcfg : g.status.cfgValid = true) (hamp : isFinite g.amplitude = true)
    (hn : g.nbits.toNat ≤ p.nMax) (hl : p.lMax < g.nbits.toNat * g.spb.toNat) :
    modulateCheck p g = some (.capacity, 0x02#8) := by
  rw [modulateCheck_of_finite hcfg hamp, if_neg hn.not_gt, if_pos hl]

theorem modulateCheck_of_fits (hcfg : g.status.cfgValid = true) (hamp : isFinite g.amplitude = true)
    (hn : g.nbits.toNat ≤ p.nMax) (hl : g.nbits.toNat * g.spb.toNat ≤ p.lMax) : modulateCheck p g = none := by
  rw [modulateCheck_of_finite hcfg hamp, if_neg hn.not_gt, if_neg hl.not_gt]

end Checks

theorem modulate_of_fails {p : Params} {s : State} {code : ErrorKind} {info : BitVec 8}
    (h : modulateCheck p s.regs = some (code, info)) : modulate p s = s.raise code info 0x02#8 := by
  rw [modulate, h]
  rfl

theorem modulate_of_passes {p : Params} {s : State} (h : modulateCheck p s.regs = none) :
    modulate p s = (modulateEffect p s).complete := by
  rw [modulate, h]
  rfl

theorem exec_modulate (s : State) : exec .modulate s = .next (modulate Config.params s) := rfl

/-- Settles O35, a lemma for each check. -/
theorem modulateChecks : Obligations.ModulateChecks := by
  intro s
  simp only [exec_modulate, Host.Outcome.next.injEq]
  exact ⟨fun hcfg => modulate_of_fails (modulateCheck_of_not_cfgValid hcfg),
    fun hcfg hamp => modulate_of_fails (modulateCheck_of_not_finite hcfg hamp),
    fun hcfg hamp hn => modulate_of_fails (modulateCheck_of_nMax_lt hcfg hamp hn),
    fun hcfg hamp hn hl => modulate_of_fails (modulateCheck_of_lMax_lt hcfg hamp hn hl)⟩

/-! ### The words -/

section Words

variable (p : Params) (s : State)

theorem modulateBits_eq :
    modulateBits p s = ((List.range s.regs.nbits.toNat).map (s.mem.bitsIn.seen p.freeBit s.draws),
      s.draws + s.mem.bitsIn.unwritten s.regs.nbits.toNat) :=
  readMany_range _ _ _ _

/-- Sample k's window is below N, so its bit is one that was read (41_ask_modulator.md R160). -/
theorem modulateBits_getD {i : ℕ} (hi : i < s.regs.nbits.toNat) :
    (modulateBits p s).1.getD i false = s.mem.bitsIn.seen p.freeBit s.draws i := by
  simp [modulateBits_eq, hi]

theorem modulate_time_read_of_lt {k : ℕ} (hcheck : modulateCheck p s.regs = none)
    (hk : k < s.regs.nbits.toNat * s.regs.spb.toNat) :
    (modulate p s).mem.time.read k = some (timeSample (timeBase s.regs.bitRate.toNat s.regs.spb.toNat) k) := by
  rw [modulate_of_passes hcheck]
  simp [modulateEffect, buf_read_fill, timeWords, hk]

theorem modulate_tx_read_of_lt {k : ℕ} (hcheck : modulateCheck p s.regs = none)
    (hk : k < s.regs.nbits.toNat * s.regs.spb.toNat) :
    (modulate p s).mem.tx.read k =
      some (txSample p s.regs.amplitude s.regs.carrierFreq.toNat (timeBase s.regs.bitRate.toNat s.regs.spb.toNat)
        (s.mem.bitsIn.seen p.freeBit s.draws (k / s.regs.spb.toNat)) k) := by
  have hbit := modulateBits_getD p s (Nat.div_lt_of_lt_mul (hk.trans_eq (Nat.mul_comm _ _)))
  rw [modulate_of_passes hcheck]
  simp only [complete_mem, modulateEffect, buf_read_fill, txWords_length, if_pos hk]
  simp only [txWords, hbit, List.getElem?_map, List.getElem?_range hk, Option.map_some]

/-- The elements past the waveform are left alone (10_state.md R64). -/
theorem modulate_read_of_le {k : ℕ} (hcheck : modulateCheck p s.regs = none)
    (hk : s.regs.nbits.toNat * s.regs.spb.toNat ≤ k) :
    (modulate p s).mem.time.read k = s.mem.time.read k ∧ (modulate p s).mem.tx.read k = s.mem.tx.read k := by
  rw [modulate_of_passes hcheck]
  simp [modulateEffect, buf_read_fill, timeWords_length, txWords_length, hk.not_gt]

/-- L is at most L_MAX, so NSAMPLES holds it (41_ask_modulator.md R166). -/
theorem modulate_nsamples (hcheck : modulateCheck p s.regs = none) :
    (modulate p s).regs.nsamples.toNat = s.regs.nbits.toNat * s.regs.spb.toNat := by
  obtain ⟨-, -, hl⟩ := modulateCheck_eq_none hcheck
  have hlmax := lMax_le p
  rw [modulate_of_passes hcheck]
  exact Nat.mod_eq_of_lt (by omega)

/-- The registers and flags that R166 sets, one draw for each unwritten bit (R164), and nothing else. -/
theorem modulate_frame (hcheck : modulateCheck p s.regs = none) :
    modulate p s = { s with
      mem := { s.mem with time := (modulate p s).mem.time, tx := (modulate p s).mem.tx }
      regs := { s.regs with
        txN := s.regs.nbits, nsamples := (modulate p s).regs.nsamples
        status := { s.regs.status with
          busy := false, txValid := true, rxValid := false, rxbValid := false, berValid := false }
        intStatus := { s.regs.intStatus with done := true } }
      draws := s.draws + s.mem.bitsIn.unwritten s.regs.nbits.toNat } := by
  have hdraws : (modulateBits p s).2 = s.draws + s.mem.bitsIn.unwritten s.regs.nbits.toNat := by rw [modulateBits_eq]
  rw [modulate_of_passes hcheck, ← hdraws]
  rfl

end Words

/-- Settles O36: the words of the waveform, the elements past it, and the frame. -/
theorem modulateWritesWaveform : Obligations.ModulateWritesWaveform := by
  intro s hcfg hamp hn hl
  have hcheck := modulateCheck_of_fits hcfg hamp hn hl
  exact ⟨_, exec_modulate s,
    fun k hk => ⟨modulate_time_read_of_lt _ s hcheck hk, modulate_tx_read_of_lt _ s hcheck hk⟩,
    fun k hk => modulate_read_of_le _ s hcheck hk, modulate_nsamples _ s hcheck, modulate_frame _ s hcheck⟩

/-! ### What the words depend on -/

/-- A written bit is seen the same in two states that hold it, whatever their draws. -/
theorem seen_congr {α : Type} {b b' : Buf α} {k : ℕ} (hsome : (b.read k).isSome) (h : b.read k = b'.read k)
    (draw : ℕ → α) (drawn drawn' : ℕ) : b.seen draw drawn k = b'.seen draw drawn' k := by
  obtain ⟨v, hv⟩ := Option.isSome_iff_exists.1 hsome
  rw [seen_written b draw drawn k v hv, seen_written b' draw drawn' k v (h ▸ hv)]

/-- Settles O37: the words of `modulate_time_read_of_lt` and `modulate_tx_read_of_lt` name nothing else. -/
theorem modulateIsDeterministic : Obligations.ModulateIsDeterministic := by
  intro s s' hnbits hamplitude hbr hfc hspb hbits hcfg hcfg' hamp hn hl
  have hcheck := modulateCheck_of_fits hcfg hamp hn hl
  have hcheck' : modulateCheck Config.params s'.regs = none :=
    modulateCheck_of_fits hcfg' (hamplitude ▸ hamp) (hnbits ▸ hn) (hnbits ▸ hspb ▸ hl)
  refine ⟨_, _, exec_modulate s, exec_modulate s', fun k hk => ?_⟩
  have hk' : k < s'.regs.nbits.toNat * s'.regs.spb.toNat := hnbits ▸ hspb ▸ hk
  obtain ⟨hsome, heq⟩ := hbits (k / s.regs.spb.toNat) (Nat.div_lt_of_lt_mul (hk.trans_eq (Nat.mul_comm _ _)))
  have hbit := seen_congr hsome heq Config.params.freeBit s.draws s'.draws
  constructor
  · rw [modulate_time_read_of_lt _ s hcheck hk, modulate_time_read_of_lt _ s' hcheck' hk', hbr, hspb]
  · rw [modulate_tx_read_of_lt _ s hcheck hk, modulate_tx_read_of_lt _ s' hcheck' hk', hbit, hamplitude, hbr,
      hfc, hspb]

theorem window_sample_div {spb r : ℕ} (i : ℕ) (hr : r < spb) : (i * spb + r) / spb = i := by
  rw [mul_comm, Nat.mul_add_div (by omega), Nat.div_eq_of_lt hr, add_zero]

/-- Windows i and j start at one phase where fc × (i − j) ≡ 0 (mod br): M = br × spb divides the distance
fc × (i − j) × spb (41_ask_modulator.md R167(b)). -/
theorem phase_window_eq {fc br i j : ℕ} (hj : j ≤ i) (h : fc * (i - j) % br = 0) (spb r : ℕ) :
    phase fc (timeBase br spb) (i * spb + r) = phase fc (timeBase br spb) (j * spb + r) := by
  obtain ⟨c, hc⟩ := Nat.dvd_of_mod_eq_zero h
  obtain ⟨d, rfl⟩ := Nat.exists_eq_add_of_le hj
  rw [Nat.add_sub_cancel_left] at hc
  have hdistance : fc * ((j + d) * spb + r) = fc * (j * spb + r) + br * spb * c :=
    calc fc * ((j + d) * spb + r) = fc * (j * spb + r) + fc * d * spb := by ring
      _ = fc * (j * spb + r) + br * spb * c := by rw [hc]; ring
  rw [phase, phase, timeBase, hdistance, Nat.add_mul_mod_self_left]

/-- Sample r of a window whose bit is written 1 is the carrier at that sample's phase (41_ask_modulator.md R163). -/
theorem modulate_tx_read_of_one {p : Params} {s : State} {i r : ℕ} (hcheck : modulateCheck p s.regs = none)
    (hi : i < s.regs.nbits.toNat) (hr : r < s.regs.spb.toNat) (hbit : s.mem.bitsIn.read i = some true) :
    (modulate p s).mem.tx.read (i * s.regs.spb.toNat + r) =
      some (p.num.carrier s.regs.amplitude
        (phase s.regs.carrierFreq.toNat (timeBase s.regs.bitRate.toNat s.regs.spb.toNat) (i * s.regs.spb.toNat + r))
        (timeBase s.regs.bitRate.toNat s.regs.spb.toNat)) := by
  have hlt : i * s.regs.spb.toNat + r < s.regs.nbits.toNat * s.regs.spb.toNat :=
    Nat.mul_comm i _ ▸ Nat.mul_add_lt_mul_of_lt_of_lt hi hr
  rw [modulate_tx_read_of_lt p s hcheck hlt, window_sample_div i hr,
    seen_written _ _ _ _ true hbit, txSample, if_pos rfl]

/-- Settles O38: both samples are the carrier at one phase. -/
theorem equalPhaseWindowsAreEqual : Obligations.EqualPhaseWindowsAreEqual := by
  refine ⟨fun p s i j r hcfg hamp hn hl hi hji hr hbi hbj hcycles => ?_, exec_modulate⟩
  have hcheck := modulateCheck_of_fits hcfg hamp hn hl
  refine ⟨_, modulate_tx_read_of_one hcheck hi hr hbi, ?_⟩
  rw [modulate_tx_read_of_one hcheck (hji.trans_lt hi) hr hbj, phase_window_eq hji hcycles]

end Sys2Proof.Machine
end

section
/-! PROOFS. ADD_NOISE (spec/42_awgn_channel.md R180 to R190): its checks in order, the branch that the waveform and the
target SNR select with the words and powers it stores, and R64 of a finite word. -/

namespace Sys2Proof.Machine

/-! ### The waveform -/

theorem channelInput_eq (p : Params) (s : State) :
    channelInput p s = ((List.range s.regs.nsamples.toNat).map (s.mem.tx.seen p.freeWord s.draws),
      s.draws + s.mem.tx.unwritten s.regs.nsamples.toNat) :=
  readMany_range _ _ _ _

theorem allZero_channelInput_iff (p : Params) (s : State) :
    allZero (channelInput p s).1 = true ↔
      ∀ k, k < s.regs.nsamples.toNat → dec (s.mem.tx.seen p.freeWord s.draws k) = .fin 0 := by
  simp [channelInput_eq, allZero]

theorem allZero_channelInput_eq_false {p : Params} {s : State}
    (h : ∃ k, k < s.regs.nsamples.toNat ∧ dec (s.mem.tx.seen p.freeWord s.draws k) ≠ .fin 0) :
    allZero (channelInput p s).1 = false := by
  obtain ⟨k, hk, hne⟩ := h
  exact Bool.eq_false_iff.2 fun hzero => hne ((allZero_channelInput_iff p s).1 hzero k hk)

/-- The exact mean square of a finite waveform (42_awgn_channel.md R183). -/
theorem signalPower_channelInput (p : Params) (s : State)
    (h : ∀ k, k < s.regs.nsamples.toNat → isFinite (s.mem.tx.seen p.freeWord s.draws k) = true) :
    signalPower p (channelInput p s).1 =
      (∑ k ∈ Finset.range s.regs.nsamples.toNat, decQ (s.mem.tx.seen p.freeWord s.draws k) ^ 2) /
        (s.regs.nsamples.toNat : ℚ) := by
  have hfinite : (channelInput p s).1.all isFinite = true := by simpa [channelInput_eq] using h
  rw [signalPower, if_pos hfinite, channelInput_eq, List.map_map, List.length_map, List.length_range]
  rfl

/-! ### The checks -/

section Checks

variable {g : Regs} {tx : List Word}

theorem addNoiseCheck_of_not_cfgValid (hcfg : g.status.cfgValid = false) :
    addNoiseCheck g tx = some (.precond, 0x01#8) := by
  simp [addNoiseCheck, hcfg]

theorem addNoiseCheck_of_not_txValid (hcfg : g.status.cfgValid = true) (htx : g.status.txValid = false) :
    addNoiseCheck g tx = some (.precond, 0x02#8) := by
  simp [addNoiseCheck, hcfg, htx]

/-- Past the two flags, the check of SNR_DB is left (42_awgn_channel.md R184). -/
theorem addNoiseCheck_of_valid (hcfg : g.status.cfgValid = true) (htx : g.status.txValid = true) :
    addNoiseCheck g tx =
      if !allZero tx && (isNaN g.snrDb || g.snrDb == negInf) then some (.operand, 0x02#8) else none := by
  simp [addNoiseCheck, hcfg, htx]

theorem addNoiseCheck_of_bad_target (hcfg : g.status.cfgValid = true) (htx : g.status.txValid = true)
    (hzero : allZero tx = false) (hsnr : isNaN g.snrDb = true ∨ g.snrDb = negInf) :
    addNoiseCheck g tx = some (.operand, 0x02#8) := by
  rw [addNoiseCheck_of_valid hcfg htx, if_pos]
  simpa [hzero] using hsnr

theorem addNoiseCheck_of_allZero (hcfg : g.status.cfgValid = true) (htx : g.status.txValid = true)
    (hzero : allZero tx = true) : addNoiseCheck g tx = none := by
  simp [addNoiseCheck_of_valid hcfg htx, hzero]

theorem addNoiseCheck_of_good_target (hcfg : g.status.cfgValid = true) (htx : g.status.txValid = true)
    (hnan : isNaN g.snrDb = false) (hinf : g.snrDb ≠ negInf) : addNoiseCheck g tx = none := by
  simp [addNoiseCheck_of_valid hcfg htx, hnan, hinf]

end Checks

theorem addNoise_of_fails {p : Params} {s : State} {code : ErrorKind} {info : BitVec 8}
    (h : addNoiseCheck s.regs (channelInput p s).1 = some (code, info)) :
    addNoise p s = s.raise code info 0x03#8 := by
  rw [addNoise, h]
  rfl

theorem addNoise_of_passes {p : Params} {s : State} (h : addNoiseCheck s.regs (channelInput p s).1 = none) :
    addNoise p s = (addNoiseEffect p s).complete := by
  rw [addNoise, h]
  rfl

theorem exec_addNoise (s : State) : exec .addNoise s = .next (addNoise Config.params s) := rfl

/-- Settles O39, a lemma for each check. -/
theorem addNoiseChecks : Obligations.AddNoiseChecks := by
  intro s
  simp only [exec_addNoise, Host.Outcome.next.injEq]
  refine ⟨fun hcfg => addNoise_of_fails (addNoiseCheck_of_not_cfgValid hcfg),
    fun hcfg htx => addNoise_of_fails (addNoiseCheck_of_not_txValid hcfg htx), ?_⟩
  rintro hcfg htx hsnr ⟨k, v, hk, hread, hne⟩
  have hzero : allZero (channelInput Config.params s).1 = false :=
    allZero_channelInput_eq_false ⟨k, hk, by rwa [seen_written _ _ _ k v hread]⟩
  exact addNoise_of_fails (addNoiseCheck_of_bad_target hcfg htx hzero hsnr)

/-! ### The branch -/

/-- The branch that the waveform and SNR_DB select (42_awgn_channel.md R180). -/
def channelPlan (p : Params) (s : State) : NoisePlan := noisePlan p (channelInput p s).1 s.regs.snrDb

section Branches

variable {p : Params} {s : State}

theorem channelPlan_eq_silent
    (h : ∀ k, k < s.regs.nsamples.toNat → dec (s.mem.tx.seen p.freeWord s.draws k) = .fin 0) :
    channelPlan p s = .silent := by
  rw [channelPlan, noisePlan, if_pos ((allZero_channelInput_iff p s).2 h)]

variable (h : ∃ k, k < s.regs.nsamples.toNat ∧ dec (s.mem.tx.seen p.freeWord s.draws k) ≠ .fin 0)
include h

theorem channelPlan_eq_skipped (hsnr : s.regs.snrDb = posInf) :
    channelPlan p s = .skipped (signalPower p (channelInput p s).1) := by
  simp [channelPlan, noisePlan, allZero_channelInput_eq_false h, hsnr]

theorem channelPlan_eq_scaled (hsnr : s.regs.snrDb ≠ posInf) :
    channelPlan p s = .scaled (signalPower p (channelInput p s).1)
      (p.num.noisePower (signalPower p (channelInput p s).1) s.regs.snrDb) := by
  simp [channelPlan, noisePlan, allZero_channelInput_eq_false h, hsnr]

end Branches

section Samples

variable {p : Params} {pn : Power} (seed ctr : Word) (ps : ℚ) (k : ℕ) (w : Word)

/-- With P_n = 0 the noise stage is skipped (42_awgn_channel.md R185). -/
theorem sample_scaled_of_val_eq_zero (h : pn.val = 0) :
    (NoisePlan.scaled ps pn).sample p seed ctr k w = requantise w := by
  rw [NoisePlan.sample, if_pos (pn.isZero_iff.2 h)]

theorem sample_scaled_of_val_ne_zero (h : pn.val ≠ 0) :
    (NoisePlan.scaled ps pn).sample p seed ctr k w = p.num.noisy w pn.val (unitDraw p seed ctr k) := by
  rw [NoisePlan.sample, if_neg (mt pn.isZero_iff.1 h)]

end Samples

/-! ### The effect -/

section Effect

variable {p : Params} {s : State} (hcheck : addNoiseCheck s.regs (channelInput p s).1 = none)
include hcheck

/-- The powers and the RX words of the branch selected (42_awgn_channel.md R180, R188). -/
theorem addNoise_of_plan {plan : NoisePlan} (hplan : channelPlan p s = plan) :
    (addNoise p s).regs.sigPower = plan.sigPowerWord ∧ (addNoise p s).regs.noisePower = plan.noisePowerWord ∧
      ∀ k, k < s.regs.nsamples.toNat → (addNoise p s).mem.rx.read k =
        some (plan.sample p s.regs.noiseSeed s.regs.noiseCtr k (s.mem.tx.seen p.freeWord s.draws k)) := by
  subst hplan
  rw [addNoise_of_passes hcheck]
  refine ⟨rfl, rfl, fun k hk => ?_⟩
  simp only [complete_mem, addNoiseEffect, buf_read_fill, rxWords_channelInput_length, if_pos hk]
  simp [rxWords, channelPlan, channelInput_eq, hk]

/-- The elements past the waveform are left alone (10_state.md R64). -/
theorem addNoise_rx_read_of_le {k : ℕ} (hk : s.regs.nsamples.toNat ≤ k) :
    (addNoise p s).mem.rx.read k = s.mem.rx.read k := by
  rw [addNoise_of_passes hcheck]
  simp only [complete_mem, addNoiseEffect, buf_read_fill, rxWords_channelInput_length, if_neg hk.not_gt]

/-- The registers and flags that R188 and R189 set, one draw for each unwritten TX word, and nothing else. -/
theorem addNoise_frame :
    addNoise p s = { s with
      mem := { s.mem with rx := (addNoise p s).mem.rx }
      regs := { s.regs with
        noiseCtr := s.regs.noiseCtr + s.regs.nsamples.zeroExtend 64
        sigPower := (addNoise p s).regs.sigPower, noisePower := (addNoise p s).regs.noisePower, rxN := s.regs.txN
        status := { s.regs.status with busy := false, rxValid := true, rxbValid := false, berValid := false }
        intStatus := { s.regs.intStatus with done := true } }
      draws := s.draws + s.mem.tx.unwritten s.regs.nsamples.toNat } := by
  have hdraws : (channelInput p s).2 = s.draws + s.mem.tx.unwritten s.regs.nsamples.toNat := by rw [channelInput_eq]
  rw [addNoise_of_passes hcheck, ← hdraws]
  rfl

end Effect

/-- Settles O40: a written waveform of zeros passes the checks whatever SNR_DB holds, takes no draw and selects the
zero-power branch. -/
theorem addNoiseZeroPower : Obligations.AddNoiseZeroPower := by
  intro s hcfg htx hwritten
  have hzero : ∀ k, k < s.regs.nsamples.toNat →
      dec (s.mem.tx.seen Config.params.freeWord s.draws k) = .fin 0 := by
    intro k hk
    obtain ⟨v, hread, hv⟩ := hwritten k hk
    rwa [seen_written _ _ _ k v hread]
  have hdraws : s.mem.tx.unwritten s.regs.nsamples.toNat = 0 := by
    refine unwritten_eq_zero _ _ fun k hk => ?_
    obtain ⟨v, hread, -⟩ := hwritten k hk
    simp [hread]
  have hcheck := addNoiseCheck_of_allZero hcfg htx ((allZero_channelInput_iff Config.params s).2 hzero)
  obtain ⟨hsig, hnoise, hrx⟩ := addNoise_of_plan hcheck (channelPlan_eq_silent hzero)
  refine ⟨_, exec_addNoise s, hrx, fun _ => addNoise_rx_read_of_le hcheck, (addNoise_frame hcheck).trans ?_⟩
  rw [hsig, hnoise, hdraws]
  rfl

/-- Settles O41: the results of each branch, and the frame. -/
theorem addNoiseWritesNoisySignal : Obligations.AddNoiseWritesNoisySignal := by
  intro s hcfg htx hnan hinf w
  have hcheck : addNoiseCheck s.regs (channelInput Config.params s).1 = none :=
    addNoiseCheck_of_good_target hcfg htx hnan hinf
  refine ⟨_, _, exec_addNoise s, signalPower_channelInput Config.params s,
    fun hzero => addNoise_of_plan hcheck (channelPlan_eq_silent hzero),
    fun hsome hsnr => addNoise_of_plan hcheck (channelPlan_eq_skipped hsome hsnr), fun hsome hsnr => ?_,
    fun _ => addNoise_rx_read_of_le hcheck, addNoise_frame hcheck⟩
  obtain ⟨hsig, hnoise, hrx⟩ := addNoise_of_plan hcheck (channelPlan_eq_scaled hsome hsnr)
  exact ⟨hsig, hnoise.trans (Power.word_eq _),
    fun hval k hk => (hrx k hk).trans (congrArg some (sample_scaled_of_val_eq_zero _ _ _ _ _ hval)),
    fun hval k hk => (hrx k hk).trans (congrArg some (sample_scaled_of_val_ne_zero _ _ _ _ _ hval))⟩

/-! ### R64 of a finite word -/

/-- A finite word by its sign, exponent and significand: the form in which `r64` gives a word, with no carry. -/
theorem exists_signedWord_of_isFinite {w : Word} (hw : isFinite w = true) :
    ∃ (s : Bool) (k m : ℕ), m < 2 ^ 53 ∧ (k = 0 ∨ 2 ^ 52 ≤ m) ∧ k * 2 ^ 52 + m < 2047 * 2 ^ 52 ∧
      w = signedWord s (k * 2 ^ 52 + m) := by
  obtain ⟨s, bits, hbits, rfl⟩ : ∃ (s : Bool) (bits : ℕ), bits < 2 ^ 63 ∧ w = signedWord s bits := by
    refine ⟨decide (2 ^ 63 ≤ w.toNat), w.toNat % 2 ^ 63, Nat.mod_lt _ (by norm_num), BitVec.eq_of_toNat_eq ?_⟩
    rw [signedWord_toNat (Nat.mod_lt _ (by norm_num))]
    simp only [decide_eq_true_eq]
    split <;> omega
  rw [isFinite_iff, expField_signedWord hbits] at hw
  rcases lt_or_ge bits (2 ^ 52) with hsub | hnormal
  · exact ⟨s, 0, bits, by omega, .inl rfl, by omega, by simp⟩
  · have hsplit : (bits / 2 ^ 52 - 1) * 2 ^ 52 + (2 ^ 52 + bits % 2 ^ 52) = bits := by omega
    exact ⟨s, bits / 2 ^ 52 - 1, 2 ^ 52 + bits % 2 ^ 52, by omega, by omega, by omega, by rw [hsplit]⟩

/-- The unit in the last place of m × 2^(k − 1074), where m has 53 bits unless k = 0. -/
theorem ulpExp_of_mantissa {v : ℝ} {k m : ℕ} (hm0 : m ≠ 0) (hm : m < 2 ^ 53) (hnorm : k = 0 ∨ 2 ^ 52 ≤ m)
    (hv : |v| = m * 2 ^ ((k : ℤ) - 1074)) : ulpExp v = (k : ℤ) - 1074 := by
  have hpos : 0 < |v| := by rw [hv]; positivity
  have hlt : Int.log 2 |v| < 53 + ((k : ℤ) - 1074) := by
    refine (Int.lt_zpow_iff_log_lt one_lt_two hpos).1 ?_
    rw [hv, Nat.cast_ofNat, zpow_add₀ two_ne_zero]
    gcongr
    exact_mod_cast hm
  have hle : 2 ^ 52 ≤ m → 52 + ((k : ℤ) - 1074) ≤ Int.log 2 |v| := fun h => by
    refine (Int.zpow_le_iff_le_log one_lt_two hpos).1 ?_
    rw [hv, Nat.cast_ofNat, zpow_add₀ two_ne_zero]
    gcongr
    exact_mod_cast h
  rw [ulpExp]
  omega

theorem roundEven_natCast (m : ℕ) : roundEven (m : ℝ) = m :=
  le_antisymm (roundEven_le (by simp)) (le_roundEven (by simp))

/-- A number with a 53-bit significand rounds to the word of its sign, exponent and significand: the significand is an
integer already. -/
theorem r64_of_mantissa {v : ℝ} {k m : ℕ} (hm0 : m ≠ 0) (hm : m < 2 ^ 53) (hnorm : k = 0 ∨ 2 ^ 52 ≤ m)
    (hv : |v| = m * 2 ^ ((k : ℤ) - 1074)) (hover : |v| < 2 ^ 1024 - 2 ^ 970) :
    r64 v = signedWord (decide (v < 0)) (k * 2 ^ 52 + m) := by
  have h0 : v ≠ 0 := abs_pos.1 (by rw [hv]; positivity)
  have hulp := ulpExp_of_mantissa hm0 hm hnorm hv
  have hscaled : scaled v = m := by
    rw [scaled, hv, hulp, mul_div_cancel_right₀ _ (by positivity)]
  obtain ⟨k', m', hk', hm', -, -, -, hword⟩ := r64_eq_signedWord h0 hover
  rw [hscaled, roundEven_natCast] at hm'
  obtain rfl : k = k' := by omega
  obtain rfl : m = m' := by exact_mod_cast hm'
  exact hword

theorem r64_decQ {w : Word} (hw : isFinite w = true) (h0 : decQ w ≠ 0) : r64 (decQ w) = w := by
  obtain ⟨s, k, m, hm, hnorm, hfin, rfl⟩ := exists_signedWord_of_isFinite hw
  have hover := abs_decQ_lt hw
  rw [← r64_ratCast]
  rw [decQ_signedWord hm.le hnorm hfin] at h0 hover ⊢
  have hm0 : m ≠ 0 := fun h => h0 (by rw [h]; simp)
  have hpos : (0 : ℝ) < m * 2 ^ ((k : ℤ) - 1074) := by positivity
  push_cast at hover ⊢
  rw [r64_of_mantissa hm0 hm hnorm _ hover]
  · cases s
    · simp [hpos.not_gt]
    · simp [hpos]
  · cases s
    · simp [abs_of_pos hpos]
    · simp [abs_of_pos hpos]

/-- The finite words of value 0 are the two zeros (R10). -/
theorem decQ_eq_zero_iff {w : Word} (hw : isFinite w = true) :
    decQ w = 0 ↔ w = posZero ∨ w = 0x8000000000000000#64 := by
  constructor
  · intro h0
    obtain ⟨s, k, m, hm, hnorm, hfin, rfl⟩ := exists_signedWord_of_isFinite hw
    have hpow : (2 : ℚ) ^ ((k : ℤ) - 1074) ≠ 0 := by positivity
    rw [decQ_signedWord hm.le hnorm hfin] at h0
    obtain rfl : m = 0 := by cases s <;> simpa [hpow] using h0
    obtain rfl : k = 0 := by omega
    cases s
    · exact .inl rfl
    · exact .inr rfl
  · rintro (rfl | rfl)
    · exact decQ_posZero
    · rw [decQ_of_expField_eq_zero (by decide), show fracField 0x8000000000000000#64 = 0 by decide]
      simp

theorem dec_of_isFinite {w : Word} (hw : isFinite w = true) : dec w = .fin (decQ w) := by
  rw [isFinite_iff] at hw
  unfold decQ dec
  split_ifs <;> rfl

/-- Settles O42: a nonzero value rounds to its own word, and the two zeros to +0.0. -/
theorem skippedNoiseIsExact : Obligations.SkippedNoiseIsExact := by
  intro w hw
  rw [requantise, if_pos hw]
  by_cases h0 : decQ w = 0
  · rw [dec_of_isFinite hw, h0, r64_zero, dec_of_isFinite (by decide), decQ_posZero]
    rcases (decQ_eq_zero_iff hw).1 h0 with rfl | rfl
    · exact ⟨rfl, by decide⟩
    · exact ⟨rfl, rfl⟩
  · rw [r64_decQ hw h0, if_neg fun h => h0 ((decQ_eq_zero_iff hw).2 (.inr h))]
    exact ⟨rfl, rfl⟩

end Sys2Proof.Machine
end

section
/-! PROOFS. DEMODULATE (spec/43_envelope_demod.md R200 to R210): its checks in order, the rectifier and the filter up to the
first non-finite sample, the bits at the midpoints, and what a sign of RX can change. -/

namespace Sys2Proof.Machine

/-! ### The checks -/

section Checks

variable {g : Regs}

theorem demodulateCheck_of_not_cfgValid (hcfg : g.status.cfgValid = false) :
    demodulateCheck g = some (.precond, 0x01#8) := by
  simp [demodulateCheck, hcfg]

variable (hcfg : g.status.cfgValid = true)
include hcfg

theorem demodulateCheck_of_not_rxValid (hrx : g.status.rxValid = false) :
    demodulateCheck g = some (.precond, 0x03#8) := by
  simp [demodulateCheck, hcfg, hrx]

variable (hrx : g.status.rxValid = true)
include hrx

theorem demodulateCheck_of_bits_ne (hn : g.nbits ≠ g.rxN) : demodulateCheck g = some (.precond, 0x04#8) := by
  simp [demodulateCheck, hcfg, hrx, hn]

variable (hn : g.nbits = g.rxN)
include hn

/-- Past the flags and the length, the check of THRESHOLD is left (43_envelope_demod.md R202). -/
theorem demodulateCheck_of_valid :
    demodulateCheck g = if isFinite g.threshold then none else some (.operand, 0x03#8) := by
  cases h : isFinite g.threshold <;> simp [demodulateCheck, hcfg, hrx, hn, h]

theorem demodulateCheck_of_not_finite (hthr : isFinite g.threshold = false) :
    demodulateCheck g = some (.operand, 0x03#8) := by
  simp [demodulateCheck_of_valid hcfg hrx hn, hthr]

theorem demodulateCheck_of_finite (hthr : isFinite g.threshold = true) : demodulateCheck g = none := by
  rw [demodulateCheck_of_valid hcfg hrx hn, if_pos hthr]

end Checks

theorem demodulate_of_fails {p : Params} {s : State} {code : ErrorKind} {info : BitVec 8}
    (h : demodulateCheck s.regs = some (code, info)) : demodulate p s = s.raise code info 0x04#8 := by
  rw [demodulate, h]
  rfl

theorem demodulate_of_passes {p : Params} {s : State} (h : demodulateCheck s.regs = none) :
    demodulate p s = (demodulateEffect p s).complete := by
  rw [demodulate, h]
  rfl

theorem exec_demodulate (s : State) : exec .demodulate s = .next (demodulate Config.params s) := rfl

/-- Settles O44, a lemma for each check. -/
theorem demodulateChecks : Obligations.DemodulateChecks := by
  intro s
  simp only [exec_demodulate, Host.Outcome.next.injEq]
  refine ⟨fun hcfg => demodulate_of_fails (demodulateCheck_of_not_cfgValid hcfg),
    fun hcfg hrx => demodulate_of_fails (demodulateCheck_of_not_rxValid hcfg hrx),
    fun hcfg hrx hn => demodulate_of_fails (demodulateCheck_of_bits_ne hcfg hrx hn),
    fun hcfg hrx hn hthr => demodulate_of_fails (demodulateCheck_of_not_finite hcfg hrx hn hthr),
    fun hcfg hrx hn hthr => ⟨_, rfl, ?_⟩⟩
  rw [demodulate_of_passes (demodulateCheck_of_finite hcfg hrx hn hthr)]
  exact ⟨rfl, rfl, rfl⟩

/-! ### The sampler -/

/-- The midpoint is inside its window (43_envelope_demod.md R205). -/
theorem samplingIndex_lt {spb : ℕ} (hspb : 1 ≤ spb) (i : ℕ) : samplingIndex spb i < (i + 1) * spb := by
  rw [samplingIndex, Nat.add_mul, Nat.one_mul]
  omega

theorem samplingIndex_lt_mul {spb i n : ℕ} (hspb : 1 ≤ spb) (hi : i < n) : samplingIndex spb i < n * spb :=
  (samplingIndex_lt hspb i).trans_le (Nat.mul_le_mul_right spb hi)

theorem samplingIndex_eq_div (spb i : ℕ) : samplingIndex spb i = (2 * i + 1) * spb / 2 := by
  rw [samplingIndex, show (2 * i + 1) * spb = 2 * (i * spb) + spb by ring]
  omega

/-- Settles O48: the midpoint is the quotient by 2 of an odd multiple of spb. -/
theorem samplingIndexIsMidpoint : Obligations.SamplingIndexIsMidpoint := by
  refine fun spb i n hspb hi =>
    ⟨?_, Nat.le_add_right _ _, samplingIndex_lt hspb i, Nat.mul_le_mul_right spb hi⟩
  have hmid : ((i : ℚ) + 1 / 2) * spb = (((2 * i + 1) * spb : ℕ) : ℚ) / (2 : ℕ) := by
    push_cast
    ring
  rw [hmid, Rat.floor_natCast_div_natCast, samplingIndex_eq_div]
  exact Int.natCast_div _ _

/-! ### The rectifier -/

/-- Up to a finite sample the rectifier runs on (43_envelope_demod.md R203). -/
theorem rectified_append {xs : List Word} (hxs : ∀ x ∈ xs, isFinite x = true) (ys : List Word) :
    rectified (xs ++ ys) = xs.map (fun x => |decQ x|) ++ rectified ys := by
  rw [rectified, List.takeWhile_append_of_pos hxs, List.map_append, rectified]

theorem rectified_cons_of_not_finite {x : Word} (hx : isFinite x = false) (xs : List Word) :
    rectified (x :: xs) = [] := by
  simp [rectified, hx]

section Prefix

variable {w : ℕ → Word} {k : ℕ} (hfin : ∀ m, m < k → isFinite (w m) = true)
include hfin

/-- The samples below k being finite, they are all rectified. -/
theorem rectified_range_add (r : ℕ) :
    rectified ((List.range (k + r)).map w) =
      (List.range k).map (fun m => |decQ (w m)|) ++ rectified ((List.range r).map (fun j => w (k + j))) := by
  rw [List.range_add, List.map_append, rectified_append (by simpa using hfin), List.map_map, List.map_map]
  rfl

theorem rectified_range_of_finite : rectified ((List.range k).map w) = (List.range k).map (fun m => |decQ (w m)|) := by
  simpa [rectified] using rectified_range_add hfin 0

/-- From the first non-finite sample on nothing is rectified (43_envelope_demod.md R209). -/
theorem rectified_range_of_not_finite (hk : isFinite (w k) = false) {l : ℕ} (hl : k < l) :
    rectified ((List.range l).map w) = (List.range k).map (fun m => |decQ (w m)|) := by
  obtain ⟨r, rfl⟩ := Nat.exists_eq_add_of_lt hl
  rw [Nat.add_assoc, rectified_range_add hfin, List.range_succ_eq_map, List.map_cons,
    rectified_cons_of_not_finite (by simpa using hk), List.append_nil]

end Prefix

/-! ### The filter's words -/

section FilterWords

variable (p : Params) (c : Coeffs) (w : ℕ → Word) (drawn : ℕ) {l n : ℕ}

theorem lowPassAll_length (num : Numerics) (xs : List ℚ) : (lowPassAll num c xs).length = xs.length := by
  simp [lowPassAll]

/-- Up to sample n all being finite, FILT[n] is the filter's output for them (43_envelope_demod.md R204). -/
theorem filtWords_getElem?_of_finite (hn : n < l) (hfin : ∀ m, m ≤ n → isFinite (w m) = true) :
    (filtWords p c ((List.range l).map w) drawn)[n]? =
      some (lowPass p.num c ((List.range (n + 1)).map (fun m => |decQ (w m)|))) := by
  obtain ⟨r, rfl⟩ := Nat.exists_eq_add_of_le (Nat.succ_le_of_lt hn)
  have hrect := rectified_range_add (fun m hm => hfin m (Nat.le_of_lt_succ hm)) r
  rw [filtWords, List.getElem?_append_left (by rw [lowPassAll_length, hrect]; simp; omega), lowPassAll, hrect,
    List.getElem?_map, List.getElem?_range (by simp; omega), Option.map_some, List.take_left' (by simp)]

/-- From the first non-finite sample n0 on, FILT[n] is the draw after n − n0 others (43_envelope_demod.md R209). -/
theorem filtWords_getElem?_of_not_finite {n0 : ℕ} (hbad : isFinite (w n0) = false)
    (hfin : ∀ m, m < n0 → isFinite (w m) = true) (hle : n0 ≤ n) (hn : n < l) :
    (filtWords p c ((List.range l).map w) drawn)[n]? = some (p.freeWord (drawn + (n - n0))) := by
  have hlen : (lowPassAll p.num c (rectified ((List.range l).map w))).length = n0 := by
    rw [lowPassAll_length, rectified_range_of_not_finite hfin hbad (hle.trans_lt hn)]
    simp
  rw [filtWords, List.getElem?_append_right (hlen.trans_le hle), hlen, List.length_map, List.length_range, drawWords,
    List.getElem?_map, List.getElem?_range (by omega), Option.map_some]

end FilterWords

/-! ### The effect -/

theorem demodInput_eq (p : Params) (s : State) :
    demodInput p s =
      ((List.range (s.regs.nbits.toNat * s.regs.spb.toNat)).map (s.mem.rx.seen p.freeWord s.draws),
        s.draws + s.mem.rx.unwritten (s.regs.nbits.toNat * s.regs.spb.toNat)) :=
  readMany_range _ _ _ _

theorem demodFilt_read_isSome (p : Params) (s : State) {k : ℕ} (hk : k < s.regs.nbits.toNat * s.regs.spb.toNat) :
    ((demodFilt p s).1.read k).isSome :=
  fill_read_isSome _ (hk.trans_eq (filtWords_demodInput_length p s _ _).symm)

/-- With a sample a bit the sampler reads only what the filter has just stored (43_envelope_demod.md R205). -/
theorem demodSamples_draws (p : Params) (s : State) (hspb : 1 ≤ s.regs.spb.toNat) :
    (demodSamples p s).2 = (demodFilt p s).2 := by
  rw [demodSamples, readWords, readMany_written _ _ _ _ fun k => ((demodFilt p s).1.read k).getD 0]
  intro k hk
  obtain ⟨i, hi, rfl⟩ := List.mem_map.1 hk
  have hsome := demodFilt_read_isSome p s (samplingIndex_lt_mul hspb (List.mem_range.1 hi))
  exact (Option.some_get hsome).symm.trans (by rw [Option.get_eq_getD])

section Effect

variable {p : Params} {s : State} (hcheck : demodulateCheck s.regs = none)
include hcheck

theorem demodulate_filt : (demodulate p s).mem.filt = (demodFilt p s).1 := by
  rw [demodulate_of_passes hcheck]
  rfl

theorem demodulate_bitsOut :
    (demodulate p s).mem.bitsOut =
      s.mem.bitsOut.fill ((demodSamples p s).1.map (comparator s.regs.threshold)) := by
  rw [demodulate_of_passes hcheck]
  rfl

theorem demodulate_filt_read_of_lt {n : ℕ} (hn : n < s.regs.nbits.toNat * s.regs.spb.toNat) :
    (demodulate p s).mem.filt.read n =
      (filtWords p (demodCoeffs p s.regs)
        ((List.range (s.regs.nbits.toNat * s.regs.spb.toNat)).map (s.mem.rx.seen p.freeWord s.draws))
        (s.draws + s.mem.rx.unwritten (s.regs.nbits.toNat * s.regs.spb.toNat)))[n]? := by
  simp only [demodulate_filt hcheck, demodFilt, buf_read_fill, filtWords_demodInput_length, if_pos hn]
  rw [demodInput_eq]

theorem demodulate_filt_read_of_le {n : ℕ} (hn : s.regs.nbits.toNat * s.regs.spb.toNat ≤ n) :
    (demodulate p s).mem.filt.read n = s.mem.filt.read n := by
  simp only [demodulate_filt hcheck, demodFilt, buf_read_fill, filtWords_demodInput_length, if_neg hn.not_gt]

/-- BITS_OUT[i] is the comparator's answer for the stored word (43_envelope_demod.md R206). -/
theorem demodulate_bitsOut_read {i : ℕ} {v : Word} (hi : i < s.regs.nbits.toNat)
    (hv : (demodulate p s).mem.filt.read (samplingIndex s.regs.spb.toNat i) = some v) :
    (demodulate p s).mem.bitsOut.read i = some (comparator s.regs.threshold v) := by
  rw [demodulate_filt hcheck] at hv
  have hsample : (demodSamples p s).1[i]? = some v :=
    readMany_get _ _ _ _ i v _ (by simp [hi]) hv
  rw [demodulate_bitsOut hcheck, buf_read_fill, List.length_map, demodSamples_length, if_pos hi, List.getElem?_map,
    hsample, Option.map_some]

theorem demodulate_bitsOut_read_isSome {i : ℕ} (hi : i < s.regs.nbits.toNat) :
    ((demodulate p s).mem.bitsOut.read i).isSome := by
  rw [demodulate_bitsOut hcheck]
  exact fill_read_isSome _ (by rwa [List.length_map, demodSamples_length])

theorem demodulate_bitsOut_read_of_le {i : ℕ} (hi : s.regs.nbits.toNat ≤ i) :
    (demodulate p s).mem.bitsOut.read i = s.mem.bitsOut.read i := by
  simp only [demodulate_bitsOut hcheck, buf_read_fill, List.length_map, demodSamples_length, if_neg hi.not_gt]

theorem le_demodulate_draws : s.draws ≤ (demodulate p s).draws := by
  rw [demodulate_of_passes hcheck]
  calc s.draws ≤ (demodInput p s).2 := readMany_draws _ _ _ _
    _ ≤ (demodFilt p s).2 := Nat.le_add_right _ _
    _ ≤ (demodSamples p s).2 := readMany_draws _ _ _ _

/-- A draw is taken for each RX word never written, and for each sample that is not rectified. -/
theorem demodulate_draws (hspb : 1 ≤ s.regs.spb.toNat) :
    (demodulate p s).draws =
      s.draws + s.mem.rx.unwritten (s.regs.nbits.toNat * s.regs.spb.toNat) +
        (s.regs.nbits.toNat * s.regs.spb.toNat -
          (rectified ((List.range (s.regs.nbits.toNat * s.regs.spb.toNat)).map
            (s.mem.rx.seen p.freeWord s.draws))).length) := by
  rw [demodulate_of_passes hcheck]
  refine (demodSamples_draws p s hspb).trans ?_
  simp only [demodFilt, demodInput_eq, List.length_map, List.length_range]

theorem demodulate_draws_of_finite (hspb : 1 ≤ s.regs.spb.toNat)
    (hfin : ∀ n, n < s.regs.nbits.toNat * s.regs.spb.toNat →
      isFinite (s.mem.rx.seen p.freeWord s.draws n) = true) :
    (demodulate p s).draws = s.draws + s.mem.rx.unwritten (s.regs.nbits.toNat * s.regs.spb.toNat) := by
  rw [demodulate_draws hcheck hspb, rectified_range_of_finite hfin]
  simp

/-- The registers and flags that R207 and R208 set, and nothing else. -/
theorem demodulate_frame :
    demodulate p s = { s with
      mem := { s.mem with filt := (demodulate p s).mem.filt, bitsOut := (demodulate p s).mem.bitsOut }
      regs := { s.regs with
        rxbN := s.regs.nbits
        status := { s.regs.status with busy := false, rxbValid := true, berValid := false }
        intStatus := { s.regs.intStatus with done := true } }
      draws := (demodulate p s).draws } := by
  rw [demodulate_of_passes hcheck]
  rfl

end Effect

/-- Settles O45: the filter's words and its draws, the bits, the elements past both, and the frame. -/
theorem demodulateRecoversBits : Obligations.DemodulateRecoversBits := by
  intro s hcfg hrx hn hthr l w drawn
  have hcheck := demodulateCheck_of_finite hcfg hrx hn hthr
  refine ⟨_, exec_demodulate s, fun n hnl hfin => ?_, fun n0 hn0 hbad hfin => ⟨fun n hle hnl => ?_, ?_⟩,
    fun hfin hspb => demodulate_draws_of_finite hcheck hspb hfin, fun _ => demodulate_filt_read_of_le hcheck,
    fun _ _ => demodulate_bitsOut_read hcheck, fun _ => demodulate_bitsOut_read_isSome hcheck,
    fun _ => demodulate_bitsOut_read_of_le hcheck, le_demodulate_draws hcheck, demodulate_frame hcheck⟩
  · exact (demodulate_filt_read_of_lt hcheck hnl).trans (filtWords_getElem?_of_finite _ _ _ _ hnl hfin)
  · exact (demodulate_filt_read_of_lt hcheck hnl).trans
      (filtWords_getElem?_of_not_finite _ _ _ _ hbad hfin hle hnl)
  · have hspb : 1 ≤ s.regs.spb.toNat := Nat.pos_of_mul_pos_left (Nat.zero_lt_of_lt hn0)
    refine (demodulate_draws hcheck hspb).trans (congrArg (fun k => drawn + (l - k)) ?_)
    refine (congrArg List.length (rectified_range_of_not_finite hfin hbad hn0)).trans ?_
    rw [List.length_map, List.length_range]

/-! ### Signs -/

/-- A word without its sign (00_scope.md R10). -/
def magnitude (w : Word) : Word := w &&& 0x7FFFFFFFFFFFFFFF#64

theorem extractLsb'_magnitude {start len : ℕ}
    (h : BitVec.extractLsb' start len 0x7FFFFFFFFFFFFFFF#64 = BitVec.allOnes len) (w : Word) :
    (magnitude w).extractLsb' start len = w.extractLsb' start len := by
  rw [magnitude, BitVec.extractLsb'_and, h, BitVec.and_allOnes]

theorem expField_magnitude (w : Word) : expField (magnitude w) = expField w :=
  congrArg BitVec.toNat (extractLsb'_magnitude (by decide) w)

theorem fracField_magnitude (w : Word) : fracField (magnitude w) = fracField w :=
  congrArg BitVec.toNat (extractLsb'_magnitude (by decide) w)

theorem isFinite_magnitude (w : Word) : isFinite (magnitude w) = isFinite w := by
  rw [isFinite, isFinite, expField_magnitude]

theorem abs_decQ_magnitude (w : Word) : |decQ (magnitude w)| = |decQ w| := by
  simp only [decQ, dec, expField_magnitude, fracField_magnitude]
  split_ifs <;> simp [F64.toRat, abs_mul, abs_div, abs_signOf]

/-- The rectifier removes the sign (43_envelope_demod.md R203). -/
theorem rectified_map_magnitude (xs : List Word) : rectified (xs.map magnitude) = rectified xs := by
  simp [rectified, List.takeWhile_map, Function.comp_def, isFinite_magnitude, abs_decQ_magnitude]

theorem buf_read_map {α β : Type} (f : α → β) (b : Buf α) (k : ℕ) :
    Buf.read (b.map fun c => (c.1, f c.2)) k = (b.read k).map f := by
  induction b with
  | nil => rfl
  | cons c rest ih =>
    simp only [List.map_cons, Buf.read, ih]
    split <;> rfl

section SameImage

variable {α β : Type} {f : α → β} {b b' : Buf α}
  (h : b'.map (fun c => (c.1, f c.2)) = b.map (fun c => (c.1, f c.2)))
include h

theorem read_map_eq_of_map_eq (k : ℕ) : (b'.read k).map f = (b.read k).map f := by
  rw [← buf_read_map, h, buf_read_map]

theorem unwritten_eq_of_map_eq (n : ℕ) : b'.unwritten n = b.unwritten n := by
  have hnone : ∀ k, (b'.read k).isNone = (b.read k).isNone := fun k => by
    simpa using congrArg Option.isNone (read_map_eq_of_map_eq h k)
  simp only [Buf.unwritten, hnone]

theorem seen_image_eq_of_map_eq (draw : ℕ → α) (drawn k : ℕ) : f (b'.seen draw drawn k) = f (b.seen draw drawn k) := by
  rw [Buf.seen, Buf.seen, ← Option.getD_map f, ← Option.getD_map f, read_map_eq_of_map_eq h, unwritten_eq_of_map_eq h]

end SameImage

theorem filtWords_congr {rx rx' : List Word} (hlen : rx'.length = rx.length) (hrect : rectified rx' = rectified rx)
    (p : Params) (c : Coeffs) (drawn : ℕ) : filtWords p c rx' drawn = filtWords p c rx drawn := by
  rw [filtWords, filtWords, hlen, hrect]

/-- RX reaches FILT by its magnitudes alone (43_envelope_demod.md R203). -/
theorem demodFilt_eq_of_magnitude_eq (p : Params) (s : State) {rx : Buf Word}
    (h : rx.map (fun c => (c.1, magnitude c.2)) = s.mem.rx.map (fun c => (c.1, magnitude c.2))) :
    demodFilt p { s with mem := { s.mem with rx := rx } } = demodFilt p s := by
  have hrect : ∀ l, rectified ((List.range l).map (rx.seen p.freeWord s.draws)) =
      rectified ((List.range l).map (s.mem.rx.seen p.freeWord s.draws)) := by
    intro l
    rw [← rectified_map_magnitude, ← rectified_map_magnitude ((List.range l).map _), List.map_map, List.map_map]
    congr 2
    exact funext (seen_image_eq_of_map_eq h p.freeWord s.draws)
  simp only [demodFilt, demodInput_eq, unwritten_eq_of_map_eq h, hrect, List.length_map]
  rw [filtWords_congr (by simp) (hrect _)]

/-- Settles O46: FILT is the same buffer, and the bits follow from it. -/
theorem demodulationIsSignBlind : Obligations.DemodulationIsSignBlind := by
  intro s t rx hmag hcfg hrx hn hthr hexec
  have hcheck := demodulateCheck_of_finite hcfg hrx hn hthr
  obtain rfl : demodulate Config.params s = t := by simpa [exec_demodulate] using hexec
  refine ⟨_, exec_demodulate _, ?_⟩
  have hfilt := demodFilt_eq_of_magnitude_eq Config.params s hmag
  have hcheck' : demodulateCheck { s with mem := { s.mem with rx := rx } }.regs = none := hcheck
  rw [demodulate_filt hcheck, demodulate_filt hcheck', demodulate_bitsOut hcheck, demodulate_bitsOut hcheck']
  simp only [demodSamples, hfilt, and_self]

/-! ### Inputs of zeros -/

theorem lowPass_of_zeros (num : Numerics) (c : Coeffs) {xs : List ℚ} (h : ∀ x ∈ xs, x = 0) :
    lowPass num c xs = posZero :=
  if_pos (List.all_eq_true.2 fun x hx => beq_iff_eq.2 (h x hx))

theorem isFinite_of_dec_eq_fin {w : Word} {q : ℚ} (h : dec w = .fin q) : isFinite w = true := by
  rw [isFinite_iff]
  by_contra hexp
  rw [dec, if_neg (by omega), if_neg hexp] at h
  split_ifs at h

theorem comparator_posZero {threshold : Word} (h : isFinite threshold = true) :
    comparator threshold posZero = decide (decQ threshold < 0) := by
  rw [comparator, dec_of_isFinite h, dec_of_isFinite (by decide), decQ_posZero]
  rfl

/-- Settles O47: every input of the filter is a prefix of zeros, and every sampled word is +0.0. -/
theorem zeroInputGivesZeroOutput : Obligations.ZeroInputGivesZeroOutput := by
  intro s hcfg hrx hn hthr hspb hzero
  have hcheck := demodulateCheck_of_finite hcfg hrx hn hthr
  have hseen : ∀ n, n < s.regs.nbits.toNat * s.regs.spb.toNat →
      dec (s.mem.rx.seen Config.params.freeWord s.draws n) = .fin 0 := by
    intro n hnl
    obtain ⟨v, hread, hv⟩ := hzero n hnl
    rwa [seen_written _ _ _ n v hread]
  have hfilt : ∀ n, n < s.regs.nbits.toNat * s.regs.spb.toNat →
      (demodulate Config.params s).mem.filt.read n = some posZero := by
    intro n hnl
    have hprefix : ∀ m, m ≤ n → dec (s.mem.rx.seen Config.params.freeWord s.draws m) = .fin 0 :=
      fun m hm => hseen m (hm.trans_lt hnl)
    rw [demodulate_filt_read_of_lt hcheck hnl,
      filtWords_getElem?_of_finite _ _ _ _ hnl fun m hm => isFinite_of_dec_eq_fin (hprefix m hm), lowPass_of_zeros]
    intro x hx
    obtain ⟨m, hm, rfl⟩ := List.mem_map.1 hx
    rw [decQ, hprefix m (Nat.le_of_lt_succ (List.mem_range.1 hm)), F64.toRat, abs_zero]
  refine ⟨_, exec_demodulate s, hfilt, fun i hi => ?_⟩
  rw [demodulate_bitsOut_read hcheck hi (hfilt _ (samplingIndex_lt_mul hspb hi)), comparator_posZero hthr]

/-- At rest the recursion stays at rest (43_envelope_demod.md R204). -/
theorem filterOutputs_replicate_zero (b a : Fin 6 → ℝ) (n : ℕ) :
    filterOutputs b a (List.replicate n 0) = List.replicate n 0 := by
  induction n with
  | zero => rfl
  | succ n ih =>
    have hgetD : ∀ k i, (List.replicate k (0 : ℝ)).getD i 0 = 0 := fun k i => by
      rw [List.getD_eq_getElem?_getD, List.getElem?_getD_replicate_default_eq]
    have hrest : filterOutput b a (0 :: List.replicate n 0) (List.replicate n 0) = 0 := by
      simp only [filterOutput, ← List.replicate_succ, hgetD, mul_zero, Finset.sum_const_zero, sub_zero]
    rw [List.replicate_succ, filterOutputs, ih, hrest]

theorem idealLpf_replicate_zero (b a : Fin 6 → ℝ) (n : ℕ) : idealLpf b a (List.replicate n 0) = posZero := by
  rw [idealLpf, List.reverse_replicate, filterOutputs_replicate_zero]
  cases n <;> exact r64_zero

/-- Settles O57: where the guard acts, the recursion is at rest. -/
theorem zeroGuardIsInertUnderIdeal : Obligations.ZeroGuardIsInertUnderIdeal := by
  intro c xs
  by_cases hzero : ∀ x ∈ xs, x = 0
  · rw [lowPass_of_zeros _ _ hzero, List.eq_replicate_of_mem hzero, List.map_replicate, Rat.cast_zero,
      idealLpf_replicate_zero]
  · exact if_neg (by simpa using hzero)

/-! ### The lengths -/

theorem configCheck_eq_none {g : Regs} (h : configCheck g = none) :
    1 ≤ g.bitRate.toNat ∧ g.bitRate.toNat ≤ g.sampleRate.toNat := by
  unfold configCheck at h
  dsimp only at h
  split_ifs at h
  omega

/-- A valid configuration takes at least one sample a bit (40_config.md R142, R143). -/
theorem spb_pos_of_configSound {p : Params} {g : Regs} (h : g.configSound p) (hcfg : g.status.cfgValid = true) :
    1 ≤ g.spb.toNat := by
  obtain ⟨hcheck, hspb, -⟩ := h hcfg
  obtain ⟨hbr, hle⟩ := configCheck_eq_none hcheck
  obtain ⟨hpos, -⟩ := timeBaseFits _ _ hbr hle g.sampleRate.isLt
  exact hpos.trans_eq hspb.symm

/-- Settles O60: RX is written up to L, so that every word read is a finite one. -/
theorem demodulateStaysInBounds : Obligations.DemodulateStaysInBounds := by
  intro s hinv hrx hn hthr hfin
  obtain ⟨-, -, htx, hcfg⟩ := hinv.chained
  obtain ⟨htxLengths, hrxN, -⟩ := hinv.lengthsSound
  obtain ⟨-, hrxWritten, -⟩ := hinv.written
  obtain ⟨-, hlen, hlmax⟩ := htxLengths (htx hrx)
  rw [← hrxN hrx, ← hn] at hlen
  have hwritten : ∀ n, n < s.regs.nbits.toNat * s.regs.spb.toNat → (s.mem.rx.read n).isSome :=
    fun n hnl => hrxWritten hrx n (hnl.trans_eq hlen.symm)
  have hcheck := demodulateCheck_of_finite (hcfg (htx hrx)) hrx hn hthr
  have hspb := spb_pos_of_configSound hinv.configSound (hcfg (htx hrx))
  refine ⟨hlen.symm, hlen.symm.trans_le hlmax, hwritten, _, exec_demodulate s, ?_, ?_⟩
  · rw [demodulate_draws_of_finite hcheck hspb, unwritten_eq_zero _ _ hwritten, Nat.add_zero]
    intro n hnl
    obtain ⟨v, hv⟩ := Option.isSome_iff_exists.1 (hwritten n hnl)
    rw [seen_written _ _ _ n v hv]
    exact hfin n v hv
  · rw [demodulate_frame hcheck]

end Sys2Proof.Machine
end

section
/-! PROOFS. COMPUTE_BER (spec/44_ber_counter.md R230 to R237): its checks in order, the count of the bits that differ with
the frame, and the range of the ratio's word. -/

namespace Sys2Proof.Machine

/-! ### The checks -/

section Checks

variable {g : Regs}

theorem computeBerCheck_of_not_cfgValid (hcfg : g.status.cfgValid = false) :
    computeBerCheck g = some (.precond, 0x01#8) := by
  simp [computeBerCheck, hcfg]

variable (hcfg : g.status.cfgValid = true)
include hcfg

theorem computeBerCheck_of_not_rxbValid (hrxb : g.status.rxbValid = false) :
    computeBerCheck g = some (.precond, 0x05#8) := by
  simp [computeBerCheck, hcfg, hrxb]

variable (hrxb : g.status.rxbValid = true)
include hrxb

theorem computeBerCheck_of_bits_ne (hn : g.nbits ≠ g.rxbN) : computeBerCheck g = some (.precond, 0x06#8) := by
  simp [computeBerCheck, hcfg, hrxb, hn]

variable (hn : g.nbits = g.rxbN)
include hn

/-- Past the flags and the length, the check for an empty sequence is left (44_ber_counter.md R234). -/
theorem computeBerCheck_of_valid :
    computeBerCheck g = if g.nbits = 0 then some (.empty, 0x01#8) else none := by
  simp [computeBerCheck, hcfg, hrxb, hn]

theorem computeBerCheck_of_empty (hzero : g.nbits = 0) : computeBerCheck g = some (.empty, 0x01#8) := by
  rw [computeBerCheck_of_valid hcfg hrxb hn, if_pos hzero]

theorem computeBerCheck_of_bits (hzero : g.nbits ≠ 0) : computeBerCheck g = none := by
  rw [computeBerCheck_of_valid hcfg hrxb hn, if_neg hzero]

end Checks

theorem computeBer_of_fails {p : Params} {s : State} {code : ErrorKind} {info : BitVec 8}
    (h : computeBerCheck s.regs = some (code, info)) : computeBer p s = s.raise code info 0x05#8 := by
  rw [computeBer, h]
  rfl

theorem computeBer_of_passes {p : Params} {s : State} (h : computeBerCheck s.regs = none) :
    computeBer p s = (computeBerEffect p s).complete := by
  rw [computeBer, h]
  rfl

theorem exec_computeBer (s : State) : exec .computeBer s = .next (computeBer Config.params s) := rfl

/-- Settles O49, a lemma for each check. -/
theorem computeBerChecks : Obligations.ComputeBerChecks := by
  intro s
  simp only [exec_computeBer, Host.Outcome.next.injEq]
  exact ⟨fun hcfg => computeBer_of_fails (computeBerCheck_of_not_cfgValid hcfg),
    fun hcfg hrxb => computeBer_of_fails (computeBerCheck_of_not_rxbValid hcfg hrxb),
    fun hcfg hrxb hn => computeBer_of_fails (computeBerCheck_of_bits_ne hcfg hrxb hn),
    fun hcfg hrxb hn hzero => computeBer_of_fails (computeBerCheck_of_empty hcfg hrxb hn hzero)⟩

/-! ### The count -/

theorem errorCount_map_range (a b : ℕ → Bool) (n : ℕ) :
    errorCount ((List.range n).map a) ((List.range n).map b) =
      ((Finset.range n).filter (fun i => a i ≠ b i)).card := by
  rw [errorCount, List.zip_map', List.filter_map, List.length_map]
  have hdiffer : ((fun c : Bool × Bool => c.1 != c.2) ∘ fun i => (a i, b i)) = fun i => decide (a i ≠ b i) :=
    funext fun _ => decide_not.symm
  rw [hdiffer]
  rfl

section Effect

variable (p : Params) (s : State)

theorem berOriginal_eq :
    berOriginal p s = ((List.range s.regs.nbits.toNat).map (s.mem.bitsIn.seen p.freeBit s.draws),
      s.draws + s.mem.bitsIn.unwritten s.regs.nbits.toNat) :=
  readMany_range _ _ _ _

/-- BITS_OUT is read after BITS_IN, so its draws follow (44_ber_counter.md R231; log entry 4). -/
theorem berRecovered_eq :
    berRecovered p s =
      ((List.range s.regs.nbits.toNat).map
        (s.mem.bitsOut.seen p.freeBit (s.draws + s.mem.bitsIn.unwritten s.regs.nbits.toNat)),
      s.draws + s.mem.bitsIn.unwritten s.regs.nbits.toNat + s.mem.bitsOut.unwritten s.regs.nbits.toNat) := by
  rw [berRecovered, berOriginal_eq]
  exact readMany_range _ _ _ _

/-- The count is at most N, so BER_ERRORS holds it (44_ber_counter.md R231). -/
theorem computeBerEffect_berErrors :
    (computeBerEffect p s).regs.berErrors.toNat = errorCount (berOriginal p s).1 (berRecovered p s).1 :=
  Nat.mod_eq_of_lt ((errorCount_le p s).trans_lt s.regs.nbits.isLt)

variable {s} (hcheck : computeBerCheck s.regs = none)
include hcheck

theorem computeBer_berErrors :
    (computeBer p s).regs.berErrors.toNat =
      ((Finset.range s.regs.nbits.toNat).filter fun i =>
        s.mem.bitsIn.seen p.freeBit s.draws i ≠
          s.mem.bitsOut.seen p.freeBit (s.draws + s.mem.bitsIn.unwritten s.regs.nbits.toNat) i).card := by
  rw [← errorCount_map_range, computeBer_of_passes hcheck]
  refine (computeBerEffect_berErrors p s).trans ?_
  rw [berOriginal_eq, berRecovered_eq]

theorem computeBer_berBits : (computeBer p s).regs.berBits = s.regs.nbits := by
  rw [computeBer_of_passes hcheck]
  rfl

theorem computeBer_ber :
    (computeBer p s).regs.ber = r64 (((computeBer p s).regs.berErrors.toNat : ℚ) / (s.regs.nbits.toNat : ℚ)) := by
  have hcount : (computeBerEffect p s).complete.regs.berErrors.toNat = _ := computeBerEffect_berErrors p s
  rw [computeBer_of_passes hcheck, hcount]
  rfl

/-- The registers and flags that R233 sets, one draw for each unwritten bit, and nothing else. -/
theorem computeBer_frame :
    computeBer p s = { s with
      regs := { s.regs with
        berErrors := (computeBer p s).regs.berErrors, berBits := (computeBer p s).regs.berBits
        ber := (computeBer p s).regs.ber
        status := { s.regs.status with busy := false, berValid := true }
        intStatus := { s.regs.intStatus with done := true } }
      draws := s.draws + s.mem.bitsIn.unwritten s.regs.nbits.toNat + s.mem.bitsOut.unwritten s.regs.nbits.toNat } := by
  have hdraws : (berRecovered p s).2 = s.draws + s.mem.bitsIn.unwritten s.regs.nbits.toNat +
      s.mem.bitsOut.unwritten s.regs.nbits.toNat := by rw [berRecovered_eq]
  rw [computeBer_of_passes hcheck, ← hdraws]
  rfl

end Effect

/-- Settles O50: the count, its ratio, and the frame. -/
theorem computeBerCountsErrors : Obligations.ComputeBerCountsErrors := by
  intro s hcfg hrxb hn hzero
  have hcheck := computeBerCheck_of_bits hcfg hrxb hn hzero
  exact ⟨_, exec_computeBer s, computeBer_berErrors _ hcheck, computeBer_berBits _ hcheck, computeBer_ber _ hcheck,
    computeBer_frame _ hcheck⟩

/-! ### The ratio -/

/-- The word 1.0 (R10). -/
def posOne : Word := 0x3FF0000000000000#64

theorem decQ_posOne : decQ posOne = 1 := by decide +kernel

theorem r64_one : r64 (1 : ℚ) = posOne := by
  rw [← decQ_posOne]
  exact r64_decQ (by decide) (by rw [decQ_posOne]; exact one_ne_zero)

section UnitInterval

variable {q : ℚ} (h0 : 0 ≤ q) (h1 : q ≤ 1)
include h0 h1

/-- No finite word is nearer to a ratio than its R64 (00_scope.md R11). -/
theorem r64_nearest_of_unit {w : Word} (hw : isFinite w = true) : |decQ (r64 q) - q| ≤ |decQ w - q| := by
  have hone : |(decQ posOne : ℝ)| < 2 ^ 1024 - 2 ^ 970 := abs_decQ_lt (by decide)
  have hle : |(q : ℝ)| ≤ |(decQ posOne : ℝ)| := by
    rw [decQ_posOne]
    exact_mod_cast abs_le_abs_of_nonneg h0 h1
  have hnear := (r64_nearest (hle.trans_lt hone) hw).1
  rw [r64_ratCast] at hnear
  exact_mod_cast hnear

/-- The nearest word is no farther than the words 0.0 and 1.0, which are on both sides of the ratio. -/
theorem decQ_r64_mem_unit : 0 ≤ decQ (r64 q) ∧ decQ (r64 q) ≤ 1 := by
  have hzero := r64_nearest_of_unit h0 h1 (w := posZero) (by decide)
  have hone := r64_nearest_of_unit h0 h1 (w := posOne) (by decide)
  rw [decQ_posZero, zero_sub, abs_neg, abs_of_nonneg h0, abs_le] at hzero
  rw [decQ_posOne, abs_of_nonneg (sub_nonneg.2 h1), abs_le] at hone
  exact ⟨by linarith, by linarith⟩

/-- A word is not the rounding where another finite word is nearer. -/
theorem r64_ne_of_nearer {u w : Word} (hu : isFinite u = true) (h : |decQ u - q| < |decQ w - q|) : r64 q ≠ w :=
  fun hw => (r64_nearest_of_unit h0 h1 hu).not_gt (hw ▸ h)

end UnitInterval

/-- From 2⁻³² on the word of 2⁻³² is nearer than 0.0. -/
theorem r64_ne_posZero {q : ℚ} (h : 1 / 2 ^ 32 ≤ q) (h1 : q ≤ 1) : r64 q ≠ posZero := by
  have hdec : decQ 0x3DF0000000000000#64 = 1 / 2 ^ 32 := by decide +kernel
  refine r64_ne_of_nearer (le_trans (by positivity) h) h1 (u := 0x3DF0000000000000#64) (by decide) ?_
  rw [hdec, decQ_posZero, abs_of_nonpos (sub_nonpos.2 h), abs_of_nonpos (by linarith)]
  linarith

/-- Up to 1 − 2⁻³² the word of 1 − 2⁻³² is nearer than 1.0. -/
theorem r64_ne_posOne {q : ℚ} (h0 : 0 ≤ q) (h : q ≤ 1 - 1 / 2 ^ 32) : r64 q ≠ posOne := by
  have hdec : decQ 0x3FEFFFFFFFE00000#64 = 1 - 1 / 2 ^ 32 := by decide +kernel
  refine r64_ne_of_nearer h0 (by linarith) (u := 0x3FEFFFFFFFE00000#64) (by decide) ?_
  rw [hdec, decQ_posOne, abs_of_nonneg (sub_nonneg.2 h), abs_of_nonneg (by linarith)]
  linarith

/-- A positive ratio of 32-bit counts is at least 2⁻³². -/
theorem le_ratio {e n : ℕ} (hn : n < 2 ^ 32) (hn0 : 1 ≤ n) (he : 1 ≤ e) : (1 : ℚ) / 2 ^ 32 ≤ (e : ℚ) / n := by
  have hn' : (n : ℚ) ≤ 2 ^ 32 := by exact_mod_cast hn.le
  have he' : (1 : ℚ) ≤ e := by exact_mod_cast he
  gcongr

/-- Settles O51: the ends are exact, and off them another word is nearer, since the counts have 32 bits. -/
theorem berRatioEnds : Obligations.BerRatioEnds := by
  intro e n hn0 hn he
  have hpos : (0 : ℚ) < n := by exact_mod_cast hn0
  have h0 : (0 : ℚ) ≤ (e : ℚ) / n := by positivity
  have h1 : (e : ℚ) / n ≤ 1 := (div_le_one hpos).2 (by exact_mod_cast he)
  obtain ⟨hlower, hupper⟩ := decQ_r64_mem_unit h0 h1
  refine ⟨hlower, hupper, ⟨fun hzero => ?_, ?_⟩, ⟨fun hone => ?_, ?_⟩⟩
  · by_contra hne
    exact r64_ne_posZero (le_ratio hn hn0 (Nat.one_le_iff_ne_zero.2 hne)) h1 hzero
  · rintro rfl
    rw [Nat.cast_zero, zero_div]
    exact r64_zero
  · by_contra hne
    have hrest := le_ratio hn hn0 (e := n - e) (by omega)
    rw [Nat.cast_sub he, sub_div, div_self hpos.ne'] at hrest
    exact r64_ne_posOne h0 (by linarith) hone
  · rintro rfl
    rw [div_self hpos.ne']
    exact r64_one

end Sys2Proof.Machine
end

section
/-! PROOFS. The system commands and the interrupt line (spec/45_system.md R240 to R244, spec/60_exceptions.md R256): the
state that each system command ends in, and when the end of a core step holds IRQ high. -/

namespace Sys2Proof.Machine

/-! ### The system commands -/

theorem exec_nop (s : State) : exec .nop s = .next s.complete := rfl

theorem exec_clearError (s : State) : exec .clearError s = .next { s with regs := s.regs.clearError }.complete := rfl

theorem exec_softReset (s : State) : exec .softReset s = .next s.softReset := rfl

/-- Settles O31: each command has one outcome, and the statement writes its registers out. -/
theorem systemCommandEffects : Obligations.SystemCommandEffects := fun s =>
  ⟨exec_nop s, exec_clearError s, exec_softReset s⟩

/-! ### The interrupt line -/

theorem irq_eq_true_iff (r : Regs) :
    r.irq = true ↔
      (r.intStatus.done = true ∧ r.intEnable.doneIe = true) ∨ (r.intStatus.erri = true ∧ r.intEnable.errIe = true) := by
  simp only [Regs.irq, Bool.or_eq_true, Bool.and_eq_true]

theorem irq_complete_of_doneIe {s : State} (h : s.regs.intEnable.doneIe = true) : s.complete.regs.irq = true :=
  (irq_eq_true_iff _).2 (.inl ⟨rfl, h⟩)

/-- Completing a command does not lower a pending and enabled error interrupt. -/
theorem irq_complete_of_erri {s : State} (hpending : s.regs.intStatus.erri = true)
    (henabled : s.regs.intEnable.errIe = true) : s.complete.regs.irq = true :=
  (irq_eq_true_iff _).2 (.inr ⟨hpending, henabled⟩)

theorem irq_raise_of_errIe {s : State} (h : s.regs.intEnable.errIe = true) (code : ErrorKind) (info op : BitVec 8) :
    (s.raise code info op).regs.irq = true := by
  rw [raise_eq]
  exact (irq_eq_true_iff _).2 (.inr ⟨rfl, h⟩)

/-- Settles O30: a completion sets DONE and a raise sets ERRI, and CLEAR_ERROR leaves ERRI and ERR_IE as they are. -/
theorem interruptLine : Obligations.InterruptLine := by
  refine ⟨irq_eq_true_iff, fun s hdone => ?_, fun s code info op herr => ?_, fun s hpending henabled => ?_⟩
  · exact ⟨_, exec_nop s, irq_complete_of_doneIe hdone⟩
  · exact irq_raise_of_errIe herr code info op
  · exact ⟨_, exec_clearError s, irq_complete_of_erri hpending henabled⟩

end Sys2Proof.Machine
end

section
/-! PROOFS. The error record and the idle block (spec/60_exceptions.md R252, R272; spec/70_reset_and_hazards.md R281, R297):
which error is kept, what a raise adds to the record, and that an ended run stays where it is. -/

namespace Sys2Proof.Machine

/-! ### The error record -/

section ErrorRecord

variable {s : State} (code : ErrorKind) (info op : BitVec 8)

/-- The first error is kept with its code. -/
theorem record_of_no_error (h : s.regs.status.err = false) :
    s.record code info op = { s with regs := { s.regs with
      status := { s.regs.status with err := true }
      errCode := ⟨code, info, op⟩
      intStatus := { s.regs.intStatus with erri := true } } } := by
  simp [State.record, Regs.record, h]

/-- A later error is told by ERR_MULTI alone: ERR_CODE stays that of the first. -/
theorem record_of_error (h : s.regs.status.err = true) :
    s.record code info op = { s with regs := { s.regs with
      status := { s.regs.status with errMulti := true }
      intStatus := { s.regs.intStatus with erri := true } } } := by
  simp [State.record, Regs.record, h]

end ErrorRecord

/-- Settles O28: the record of the two values of ERR, and a raise is by definition that record with BUSY cleared. -/
theorem recordKeepsFirstError : Obligations.RecordKeepsFirstError := fun _ code info op =>
  ⟨record_of_no_error code info op, record_of_error code info op, rfl⟩

/-! ### The idle block -/

theorem nextAgent_of_ended {s : State} (p : Params) (h : s.ended) : nextAgent p s = none := by
  obtain ⟨hinbox, hbusy⟩ := h
  simp only [nextAgent, hinbox, hbusy]

theorem step_of_ended {s : State} (h : s.ended) : step s = .next s := by
  simp only [step, agentStep, nextAgent_of_ended Config.params h]

theorem reset_ended : State.reset.ended := ⟨rfl, rfl⟩

/-- Settles O7: in an ended state neither agent can move. -/
theorem idleBlockKeepsItsState : Obligations.IdleBlockKeepsItsState := ⟨fun _ => step_of_ended, reset_ended⟩

end Sys2Proof.Machine
end

section
/-! PROOFS. Power-on reset (spec/70_reset_and_hazards.md R280, R283): the state after it meets the invariant, what its
registers read as, and what each command does on them. -/

namespace Sys2Proof.Machine

/-! ### The state after reset -/

/-- Settles O58: no stage is valid, and every buffer is empty. -/
theorem resetMeetsInvariant : Obligations.ResetMeetsInvariant := inv_reset_regs rfl rfl rfl

theorem irq_reset : Regs.reset.irq = false := rfl

theorem element_reset (w : Window) (i : ℕ) : Memory.reset.element w i = none := by
  cases w <;> rfl

/-- The registers whose reset value 10_state.md R32 gives as 0. -/
theorem value_reset_eq_zero (p : Params) {r : Reg} (hid : r ≠ .id) (hcaps : r ≠ .caps) (hamp : r ≠ .amplitude)
    (hsnr : r ≠ .snrDb) (hthr : r ≠ .threshold) : r.value p Regs.reset = 0#64 := by
  cases r with
  | id | caps | amplitude | snrDb | threshold => contradiction
  | lpfB i | lpfA i => exact Vector.getElem_replicate i.isLt
  | _ => rfl

/-- Settles O10: the reset event leaves nothing of the state before it, and each of the five registers that do not reset
to 0 is read off the reset values. -/
theorem powerOnResetState : Obligations.PowerOnResetState := by
  intro s
  refine ⟨s.powerOnReset, rfl, powerOnReset_regs s, powerOnReset_cmdLatch s, irq_reset, element_reset, fun r => ?_⟩
  rw [powerOnReset_regs]
  split_ifs with hid hcaps hamp hsnr hthr
  · rw [hid]; rfl
  · rw [hcaps]; rfl
  · rw [hamp]; rfl
  · rw [hsnr]; rfl
  · rw [hthr]; rfl
  · exact value_reset_eq_zero _ hid hcaps hamp hsnr hthr

/-! ### The commands on the reset registers -/

/-- With no error standing every command word is accepted, whatever its opcode (30_encoding.md R114). -/
theorem accept_of_no_error {s : State} (h : s.regs.status.err = false) (v : Word) :
    s.accept v = { (s.setStatus { s.regs.status with busy := true }) with cmdLatch := v } := by
  rw [State.accept, h]
  rfl

/-- Until CONFIG has succeeded, the four commands after it end with E_PRECOND(1), their first check. -/
theorem exec_of_not_cfgValid {s : State} (hcfg : s.regs.status.cfgValid = false) :
    exec .modulate s = .next (s.raise .precond 0x01#8 0x02#8) ∧
    exec .addNoise s = .next (s.raise .precond 0x01#8 0x03#8) ∧
    exec .demodulate s = .next (s.raise .precond 0x01#8 0x04#8) ∧
    exec .computeBer s = .next (s.raise .precond 0x01#8 0x05#8) := by
  refine ⟨?_, ?_, ?_, ?_⟩
  · rw [exec_modulate, modulate_of_fails (modulateCheck_of_not_cfgValid hcfg)]
  · rw [exec_addNoise, addNoise_of_fails (addNoiseCheck_of_not_cfgValid hcfg)]
  · rw [exec_demodulate, demodulate_of_fails (demodulateCheck_of_not_cfgValid hcfg)]
  · rw [exec_computeBer, computeBer_of_fails (computeBerCheck_of_not_cfgValid hcfg)]

/-- A system command that finds every flag but BUSY clear completes with STATUS = 0. -/
theorem exec_system_status {s : State} {busy : Bool} (h : s.regs.status = { Status.reset with busy := busy }) {i : Instr}
    (hi : i ∈ [Instr.nop, .clearError, .softReset]) : ∃ t, exec i s = .next t ∧ t.regs.status = Status.reset := by
  simp only [List.mem_cons, List.not_mem_nil, or_false] at hi
  rcases hi with rfl | rfl | rfl
  · exact ⟨_, exec_nop s, by rw [complete_status, h]; rfl⟩
  · exact ⟨_, exec_clearError s, by rw [complete_status, Regs.clearError, h]; rfl⟩
  · exact ⟨_, exec_softReset s, rfl⟩

/-- Settles O11: ERR = 0 lets the write through, BIT_RATE = 0 and CFG_VALID = 0 fail the first checks of the other commands,
and the system commands check nothing. -/
theorem commandsAfterReset : Obligations.CommandsAfterReset := by
  refine ⟨fun s v hr => ?_, fun s busy hr => ?_⟩
  · have hbusy : s.regs.status.busy = false := by rw [hr]; rfl
    have herr : s.regs.status.err = false := by rw [hr]; rfl
    rw [exec_wr_cmd hbusy, accept_of_no_error herr, State.setStatus, hr]
  · have hrate : s.regs.bitRate = 0 := by rw [hr]; rfl
    have hcfg : s.regs.status.cfgValid = false := by rw [hr]; rfl
    have hstatus : s.regs.status = { Status.reset with busy := busy } := by rw [hr]; rfl
    obtain ⟨hmod, hnoise, hdemod, hber⟩ := exec_of_not_cfgValid hcfg
    exact ⟨exec_config_of_fails (configCheck_of_zero (.inl hrate)), hmod, hnoise, hdemod, hber,
      fun _ => exec_system_status hstatus⟩

end Sys2Proof.Machine
end
